-- ==== Sys2Proof/Word.lean ====
section
/-! DEFINITION. The word types of the hardware: bytes and the program counter's word. -/

namespace Sys2Proof

/-- An 8-bit value: a register, a memory cell, an opcode byte, an operand byte (00_scope.md R7, R11). -/
abbrev Byte := BitVec 8

/-- The program counter's word: 9 bits unsigned, of which a run reaches 0 to 256 (00_scope.md R7, 10_state.md R26). -/
abbrev PcWord := BitVec 9

end Sys2Proof
end

