-- ==== Sys2Proof/Syntax.lean ====
section
/-! DEFINITION. The instructions: one constructor for each of the 28 rows of spec/opcode_table.json, in the table's order
(30_encoding.md R77). A constructor carries the instruction's OPERAND BYTES as they stand in memory, `op1` then `op2`: a reg
operand byte is any byte here, and whether it names a register is checked whole when the instruction runs (R76). -/

namespace Sys2Proof

/-- An instruction with its operand bytes. `d` is `op1` as destination register, `s` is `op2` as source register, `r` a sole
register operand, `imm` LDI's 8-bit immediate (30_encoding.md R74, R85). -/
inductive Instr where
  | add (d s : Byte)
  | sub (d s : Byte)
  | mul (d s : Byte)
  | div (d s : Byte)
  | mod (d s : Byte)
  | inc (d : Byte)
  | dec (d : Byte)
  | cmp (d s : Byte)
  | and (d s : Byte)
  | not (d : Byte)
  | or (d s : Byte)
  | xor (d s : Byte)
  | shl (d s : Byte)
  | shr (d s : Byte)
  | push (r : Byte)
  | pop (r : Byte)
  | call (r : Byte)
  | ret
  | ldi (r imm : Byte)
  | prn (r : Byte)
  | hlt
  | jmp (r : Byte)
  | jeq (r : Byte)
  | jne (r : Byte)
  | jgt (r : Byte)
  | jlt (r : Byte)
  | jle (r : Byte)
  | jge (r : Byte)
  deriving DecidableEq, Repr

end Sys2Proof
end

