-- ==== Sys2Proof/WellFormed.lean ====
section
/-! DEFINITION. Which instructions are well formed: those whose reg operand bytes name registers, 0 to 7
(30_encoding.md R74, R76). An instruction that is not well formed still decodes and runs: it raises MalformedInstruction
(44_fetch_decode_execute.md R197). -/

namespace Sys2Proof

/-- The operand bytes of kind reg, in the order they are checked: `op1` then `op2`. Only LDI has an operand of another kind,
its second (30_encoding.md R74). -/
def Instr.regOperands : Instr → List Byte
  | .add d s => [d, s]
  | .sub d s => [d, s]
  | .mul d s => [d, s]
  | .div d s => [d, s]
  | .mod d s => [d, s]
  | .inc d => [d]
  | .dec d => [d]
  | .cmp d s => [d, s]
  | .and d s => [d, s]
  | .not d => [d]
  | .or d s => [d, s]
  | .xor d s => [d, s]
  | .shl d s => [d, s]
  | .shr d s => [d, s]
  | .push r => [r]
  | .pop r => [r]
  | .call r => [r]
  | .ret => []
  | .ldi r _ => [r]
  | .prn r => [r]
  | .hlt => []
  | .jmp r => [r]
  | .jeq r => [r]
  | .jne r => [r]
  | .jgt r => [r]
  | .jlt r => [r]
  | .jle r => [r]
  | .jge r => [r]

/-- A reg operand byte names a register when it is 0 to 7; it is not masked (30_encoding.md R76, 10_state.md R25). -/
def namesRegister (b : Byte) : Bool := decide (b.toNat ≤ 7)

/-- Every reg operand byte names a register. -/
def Instr.wellFormed (i : Instr) : Bool := i.regOperands.all namesRegister

end Sys2Proof
end

