-- ==== Sys2Proof/Decode.lean ====
section
/-! DEFINITION. The instruction decoder, the opcode dispatch's table and the encoder (30_encoding.md). The byte values stand
once, in the `Opcode` constants: the spec adopts them from the LS-8 (R77, decision D1; log entry 1), and a reader who has other
values replaces that one table. -/

namespace Sys2Proof

/-! ### The opcode bytes of 30_encoding.md R77 -/

def Opcode.add : Byte := 0xA0
def Opcode.sub : Byte := 0xA1
def Opcode.mul : Byte := 0xA2
def Opcode.div : Byte := 0xA3
def Opcode.mod : Byte := 0xA4
def Opcode.inc : Byte := 0x65
def Opcode.dec : Byte := 0x66
def Opcode.cmp : Byte := 0xA7
def Opcode.and : Byte := 0xA8
def Opcode.not : Byte := 0x69
def Opcode.or : Byte := 0xAA
def Opcode.xor : Byte := 0xAB
def Opcode.shl : Byte := 0xAC
def Opcode.shr : Byte := 0xAD
def Opcode.push : Byte := 0x45
def Opcode.pop : Byte := 0x46
def Opcode.call : Byte := 0x50
def Opcode.ret : Byte := 0x11
def Opcode.ldi : Byte := 0x82
def Opcode.prn : Byte := 0x47
def Opcode.hlt : Byte := 0x01
def Opcode.jmp : Byte := 0x54
def Opcode.jeq : Byte := 0x55
def Opcode.jne : Byte := 0x56
def Opcode.jgt : Byte := 0x57
def Opcode.jlt : Byte := 0x58
def Opcode.jle : Byte := 0x59
def Opcode.jge : Byte := 0x5A

/-! ### The fields of an opcode byte (30_encoding.md R71) -/

/-- `operand_count = b[7:6]`. -/
def operandCount (b : Byte) : Nat := (b.extractLsb' 6 2).toNat

/-- `is_alu = b[5]`. -/
def isAlu (b : Byte) : Bool := b.getLsbD 5

/-- `sets_pc = b[4]`. -/
def setsPc (b : Byte) : Bool := b.getLsbD 4

/-- What the Decode phase reads from the opcode byte alone. -/
structure OpcodeFields where
  opcode : Byte
  operandCount : Nat
  isAlu : Bool
  setsPc : Bool
  deriving DecidableEq, Repr

/-- The Decode phase: total, never fails, reads no state (30_encoding.md R72, 44_fetch_decode_execute.md R193). -/
def decodeFields (b : Byte) : OpcodeFields :=
  { opcode := b, operandCount := Sys2Proof.operandCount b, isAlu := Sys2Proof.isAlu b, setsPc := Sys2Proof.setsPc b }

/-! ### The dispatch mux (44_fetch_decode_execute.md R196) -/

/-- A row of the dispatch: the opcode byte, and the instruction it selects from the two operand bytes (a row of fewer operands
does not look at the bytes it has not). -/
structure OpcodeRow where
  byte : Byte
  build : Byte → Byte → Instr

/-- The fourteen operations of the ALU (30_encoding.md R78). -/
def aluRows : List OpcodeRow :=
  [⟨Opcode.add, .add⟩, ⟨Opcode.sub, .sub⟩, ⟨Opcode.mul, .mul⟩, ⟨Opcode.div, .div⟩, ⟨Opcode.mod, .mod⟩,
   ⟨Opcode.inc, fun d _ => .inc d⟩, ⟨Opcode.dec, fun d _ => .dec d⟩, ⟨Opcode.cmp, .cmp⟩, ⟨Opcode.and, .and⟩,
   ⟨Opcode.not, fun d _ => .not d⟩, ⟨Opcode.or, .or⟩, ⟨Opcode.xor, .xor⟩, ⟨Opcode.shl, .shl⟩, ⟨Opcode.shr, .shr⟩]

/-- The fourteen handlers of the dispatch table (42_handlers.md R160). The table is a constant, not state (10_state.md R35). -/
def handlerRows : List OpcodeRow :=
  [⟨Opcode.push, fun r _ => .push r⟩, ⟨Opcode.pop, fun r _ => .pop r⟩, ⟨Opcode.call, fun r _ => .call r⟩,
   ⟨Opcode.ret, fun _ _ => .ret⟩, ⟨Opcode.ldi, .ldi⟩, ⟨Opcode.prn, fun r _ => .prn r⟩, ⟨Opcode.hlt, fun _ _ => .hlt⟩,
   ⟨Opcode.jmp, fun r _ => .jmp r⟩, ⟨Opcode.jeq, fun r _ => .jeq r⟩, ⟨Opcode.jne, fun r _ => .jne r⟩,
   ⟨Opcode.jgt, fun r _ => .jgt r⟩, ⟨Opcode.jlt, fun r _ => .jlt r⟩, ⟨Opcode.jle, fun r _ => .jle r⟩,
   ⟨Opcode.jge, fun r _ => .jge r⟩]

/-- Why a list of bytes is no instruction. -/
inductive Reject where
  /-- There is no byte at all. -/
  | noBytes
  /-- `operand_count = 3` (44_fetch_decode_execute.md R194). -/
  | malformedLength
  /-- Operand byte `k` (1 or 2) is missing (R195). -/
  | missingOperand (k : Nat)
  /-- `is_alu = 1` and the byte is no ALU operation (R196). -/
  | unsupportedAlu
  /-- `is_alu = 0` and the byte has no handler (R196). -/
  | unimplemented
  deriving DecidableEq, Repr

/-- The row of `rows` whose byte is the whole of `b` (30_encoding.md R73). -/
def findRow (rows : List OpcodeRow) (b : Byte) : Option (Byte → Byte → Instr) :=
  (rows.find? fun r => r.byte == b).map OpcodeRow.build

/-- `is_alu` chooses the unit, the whole byte chooses the row, and `is_alu` names the failure (44_fetch_decode_execute.md R196). -/
def select (b : Byte) : Except Reject (Byte → Byte → Instr) :=
  if isAlu b then
    match findRow aluRows b with
    | some build => .ok build
    | none => .error .unsupportedAlu
  else
    match findRow handlerRows b with
    | some build => .ok build
    | none => .error .unimplemented

/-- The decoder, total on any bytes: the instruction at the head of the list and the bytes after it. The checks stand in the
order of 44_fetch_decode_execute.md R200: the length, the operand bytes, the dispatch. -/
def decode : List Byte → Except Reject (Instr × List Byte)
  | [] => .error .noBytes
  | b :: rest =>
    if operandCount b = 3 then .error .malformedLength
    else if rest.length < operandCount b then .error (.missingOperand (rest.length + 1))
    else
      match select b with
      | .error e => .error e
      | .ok build => .ok (build (rest.getD 0 0) (rest.getD 1 0), rest.drop (operandCount b))

/-! ### The encoder -/

/-- The opcode byte of an instruction (30_encoding.md R77). -/
def opcodeOf : Instr → Byte
  | .add _ _ => Opcode.add
  | .sub _ _ => Opcode.sub
  | .mul _ _ => Opcode.mul
  | .div _ _ => Opcode.div
  | .mod _ _ => Opcode.mod
  | .inc _ => Opcode.inc
  | .dec _ => Opcode.dec
  | .cmp _ _ => Opcode.cmp
  | .and _ _ => Opcode.and
  | .not _ => Opcode.not
  | .or _ _ => Opcode.or
  | .xor _ _ => Opcode.xor
  | .shl _ _ => Opcode.shl
  | .shr _ _ => Opcode.shr
  | .push _ => Opcode.push
  | .pop _ => Opcode.pop
  | .call _ => Opcode.call
  | .ret => Opcode.ret
  | .ldi _ _ => Opcode.ldi
  | .prn _ => Opcode.prn
  | .hlt => Opcode.hlt
  | .jmp _ => Opcode.jmp
  | .jeq _ => Opcode.jeq
  | .jne _ => Opcode.jne
  | .jgt _ => Opcode.jgt
  | .jlt _ => Opcode.jlt
  | .jle _ => Opcode.jle
  | .jge _ => Opcode.jge

/-- The operand bytes of an instruction in encoding order (30_encoding.md R70, R77). -/
def operandBytes : Instr → List Byte
  | .add d s => [d, s]
  | .sub d s => [d, s]
  | .mul d s => [d, s]
  | .div d s => [d, s]
  | .mod d s => [d, s]
  | .inc d => [d]
  | .dec d => [d]
  | .cmp d s => [d, s]
  | .and d s => [d, s]
  | .not d => [d]
  | .or d s => [d, s]
  | .xor d s => [d, s]
  | .shl d s => [d, s]
  | .shr d s => [d, s]
  | .push r => [r]
  | .pop r => [r]
  | .call r => [r]
  | .ret => []
  | .ldi r imm => [r, imm]
  | .prn r => [r]
  | .hlt => []
  | .jmp r => [r]
  | .jeq r => [r]
  | .jne r => [r]
  | .jgt r => [r]
  | .jlt r => [r]
  | .jle r => [r]
  | .jge r => [r]

/-- The bytes of an instruction: the opcode byte, then the operand bytes at ascending addresses (30_encoding.md R70). -/
def encode (i : Instr) : List Byte := opcodeOf i :: operandBytes i

/-! ### Words as spec/opcode_table.json numbers them -/

/-- The longest instruction, three bytes (30_encoding.md R84), read from an instruction word of `nbits` bits whose bit 0 is the
least significant bit of the first byte; every bit from `nbits` on is 0. -/
def bytesOfTableWord (nbits w : Nat) : List Byte :=
  let v := w % 2 ^ nbits
  [BitVec.ofNat 8 v, BitVec.ofNat 8 (v / 2 ^ 8), BitVec.ofNat 8 (v / 2 ^ 16)]

/-- The instruction the decoder reads from such a word, none where it refuses. -/
def decodeTableWord (nbits w : Nat) : Option Instr :=
  match decode (bytesOfTableWord nbits w) with
  | .ok (i, _) => some i
  | .error _ => none

end Sys2Proof
end

