-- ==== Sys2Proof/Config.lean ====
section
/-! DEFINITION. The values the spec fixes for this hardware (00_scope.md R7). There is no free value: the spec leaves none
open (44_fetch_decode_execute.md R202, "no draws and no oracle"). -/

namespace Sys2Proof.Config

/-- Memory has 256 cells, addresses 0 to 255 (20_memory.md R50). -/
abbrev memSize : Nat := 256

/-- The longest program image the loader accepts, in bytes (00_scope.md R7, 70_reset_and_hazards.md R255). -/
abbrev maxImage : Nat := 256

/-- `SP_INIT`, the stack pointer after reset (00_scope.md R7, 90_conflicts.md C5). -/
abbrev spInit : Byte := 0xF7

/-- The highest address of the stack region, the first cell a push from reset writes (00_scope.md R8, 20_memory.md R56). -/
abbrev stackTop : Nat := 0xF6

/-- What a cell that nothing has written holds: memory is zeroed at construction (10_state.md R37). -/
abbrev unwrittenByte : Byte := 0

end Sys2Proof.Config
end

