-- ==== Sys2Proof/Machine/State.lean ====
section
/-! DEFINITION. The state of the core, field for field the tuple at the head of 10_state.md, its value after reset
(10_state.md R37), and the reasons a step can stop. -/

namespace Sys2Proof.Machine

/-- The eight faults of 60_exceptions.md R220, in the order of their codes. -/
inductive FaultKind where
  | divisionByZero
  | unsupportedAluOperation
  | unimplementedOpcode
  | malformedInstruction
  | stackOverflow
  | stackUnderflow
  | invalidMemoryAddress
  /-- Raised by the host's load only, never recorded by a step (60_exceptions.md R228). -/
  | programTooLarge
  deriving DecidableEq, Repr

/-- What a fault records (10_state.md R31). `opcode` is none when the fetch itself faulted; `info` is the faulting address, the
offending operand byte, or none. -/
structure FaultRecord where
  reason : FaultKind
  faultPc : PcWord
  opcode : Option Byte
  info : Option Nat
  deriving DecidableEq, Repr

/-- The execution status; Halted and Faulted are terminal (10_state.md R30, 44_fetch_decode_execute.md R190). -/
inductive Status where
  | running
  | halted
  | faulted (record : FaultRecord)
  deriving DecidableEq, Repr

/-- The comparison flags FL: less, greater, equal (10_state.md R28). -/
structure Flags where
  l : Bool
  g : Bool
  e : Bool
  deriving DecidableEq, Repr

/-- Memory as pairs of address and byte, addresses strictly rising, no pair holding what an unlisted address reads as. -/
abbrev Memory := List Host.Cell

/-- The complete state of the core (10_state.md, head of the file). -/
structure State where
  /-- R0 to R7; R7 is the stack pointer (10_state.md R20, R22). -/
  regs : Vector Byte 8
  /-- The program counter (10_state.md R26). -/
  pc : PcWord
  /-- The flag register FL (10_state.md R28). -/
  flags : Flags
  /-- The 256 cells of memory (20_memory.md R50). -/
  mem : Memory
  /-- The execution status (10_state.md R30). -/
  status : Status
  /-- The values PRN emitted, oldest first (10_state.md R32). -/
  out : List Byte
  /-- The lowest address the stack may occupy, 0 to 256 (10_state.md R33, 00_scope.md R8). -/
  stackLimit : Fin 257
  deriving DecidableEq, Repr

/-- The machine after construction, every value as 10_state.md R37 gives it. -/
def State.reset : State where
  regs := #v[0, 0, 0, 0, 0, 0, 0, Config.spInit]
  pc := 0
  flags := { l := false, g := false, e := false }
  mem := []
  status := .running
  out := []
  stackLimit := 0

/-- Why there is no step (44_fetch_decode_execute.md R191: a step is defined only when `status = Running`). A fault of the
hardware is not among these: it is a next state whose status is Faulted (log entry 2). -/
inductive Fault where
  /-- Raised by `step` alone, in the Halted state. Safe: the machine has no step there. -/
  | noStepHalted
  /-- Raised by `step` alone, in a Faulted state, with the record that stands in it. Safe: the machine has no step there. -/
  | noStepFaulted (record : FaultRecord)
  deriving DecidableEq, Repr

/-- Instructions without a meaning. No arm of this model raises it. -/
inductive Refusal where
  /-- Raised by an arm of `exec` whose instruction has no meaning yet; none is left. Safe: nothing runs. -/
  | notModelled (mnemonic : String)
  deriving DecidableEq, Repr

/-- The answer of a meaning and of a step. -/
abbrev StepOutcome := Host.Outcome State Fault Refusal

end Sys2Proof.Machine
end

