-- ==== Sys2Proof/Machine/Ops.lean ====
section
/-! DEFINITION. The named operations over registers, memory and the stack, raising a fault, and the Advance phase. -/

namespace Sys2Proof.Machine

/-! ### Arithmetic -/

/-- `mask8(v)`: the remainder of an integer modulo 256 (00_scope.md R11). -/
def mask8 (v : Int) : Byte := BitVec.ofInt 8 v

/-! ### Registers (10_state.md R20 to R23) -/

/-- `x[i]`. -/
def State.reg (s : State) (i : Fin 8) : Byte := s.regs[i]

/-- `x[i] <- v`. -/
def State.setReg (s : State) (i : Fin 8) (v : Byte) : State := { s with regs := s.regs.set i v }

/-- `SP`, another name of `x[7]` (10_state.md R22). -/
def State.sp (s : State) : Byte := s.reg 7

/-- `SP <- v`. -/
def State.setSp (s : State) (v : Byte) : State := s.setReg 7 v

/-! ### Memory (20_memory.md) -/

/-- The canonical form: addresses below 256 and strictly rising, no pair holding what an unlisted address reads as. -/
def Memory.wf : Memory → Bool
  | [] => true
  | (a, v) :: rest =>
    decide (a < Config.memSize) && decide (v ≠ Config.unwrittenByte) && rest.all (fun c => decide (a < c.1)) && Memory.wf rest

/-- The byte at an address; a cell that nothing has written holds its reset value (10_state.md R37). -/
def Memory.read : Memory → Nat → Byte
  | [], _ => Config.unwrittenByte
  | (b, v) :: rest, a => if a = b then v else Memory.read rest a

/-- The list without what it holds for address `a`. -/
def Memory.erase : Memory → Nat → Memory
  | [], _ => []
  | (b, w) :: rest, a => if a = b then Memory.erase rest a else (b, w) :: Memory.erase rest a

/-- The list with the pair put before the first higher address. -/
def Memory.insert : Memory → Nat → Byte → Memory
  | [], a, v => [(a, v)]
  | (b, w) :: rest, a, v => if a < b then (a, v) :: (b, w) :: rest else (b, w) :: Memory.insert rest a v

/-- The memory with `v` at address `a`, every other cell unchanged (20_memory.md R55): the address's old pair goes, and the new one
is listed unless it holds what an unlisted address reads as. -/
def Memory.write (m : Memory) (a : Nat) (v : Byte) : Memory :=
  if v = Config.unwrittenByte then Memory.erase m a else Memory.insert (Memory.erase m a) a v

/-- The bytes of `image` at `a` and the addresses after it; a byte past the last cell is not stored. -/
def Memory.writeBytes (m : Memory) (a : Nat) : List Byte → Memory
  | [] => m
  | v :: rest => Memory.writeBytes (if a < Config.memSize then Memory.write m a v else m) (a + 1) rest

/-- `MemRead(a, 1)` under its address condition: none outside 0 to 255 (00_scope.md R12, 20_memory.md R51). -/
def State.memRead? (s : State) (a : Nat) : Option Byte :=
  if a < Config.memSize then some (Memory.read s.mem a) else none

/-- `MemWrite(a, 1, v)`; the address is a byte, so it is always in range. -/
def State.memWrite (s : State) (a v : Byte) : State := { s with mem := Memory.write s.mem a.toNat v }

/-! ### Faults: the one way an exception is taken (60_exceptions.md R226) -/

/-- A fault as the phase that finds it reports it: its kind, the opcode byte if it was fetched, the recorded information. -/
structure Trap where
  kind : FaultKind
  opcode : Option Byte
  info : Option Nat
  deriving DecidableEq, Repr

/-- The record a trap leaves in a state (10_state.md R31). -/
def Trap.record (t : Trap) (pc : PcWord) : FaultRecord :=
  { reason := t.kind, faultPc := pc, opcode := t.opcode, info := t.info }

/-- `raise F(info)`: `status` becomes Faulted with the record and nothing else changes (44_fetch_decode_execute.md R201, R202).
There is no return from a fault: the status is terminal (60_exceptions.md R232). -/
def raise (t : Trap) (s : State) : StepOutcome := .next { s with status := .faulted (t.record s.pc) }

/-- The code of a fault, in the spec's own numbering (60_exceptions.md R220). -/
def FaultKind.code : FaultKind → Nat
  | .divisionByZero => 1
  | .unsupportedAluOperation => 2
  | .unimplementedOpcode => 3
  | .malformedInstruction => 4
  | .stackOverflow => 5
  | .stackUnderflow => 6
  | .invalidMemoryAddress => 7
  | .programTooLarge => 8

/-! ### The stack (41_stack.md) -/

/-- Whether an address lies in the stack region `stack_limit`..0xF6 (00_scope.md R8). -/
def State.inStackRegion (s : State) (a : Byte) : Bool := decide (s.stackLimit.val ≤ a.toNat) && decide (a.toNat ≤ Config.stackTop)

/-- Where a push stores: `mask8(SP - 1)` (41_stack.md R140). -/
def State.pushAddress (s : State) : Byte := mask8 ((s.sp.toNat : Int) - 1)

/-- `push(v)`: the state with the value pushed, or the target address that lies outside the region (41_stack.md R140, R142). -/
def push (v : Byte) (s : State) : Except Byte State :=
  if s.inStackRegion s.pushAddress then .ok ((s.setSp s.pushAddress).memWrite s.pushAddress v)
  else .error s.pushAddress

/-- `pop()`: the value and the state with SP moved up, or the address that lies outside the region (41_stack.md R141, R143). -/
def pop (s : State) : Except Byte (Byte × State) :=
  if s.inStackRegion s.sp then .ok (Memory.read s.mem s.sp.toNat, s.setSp (mask8 ((s.sp.toNat : Int) + 1)))
  else .error s.sp

/-! ### The program counter -/

/-- `pc <- v` for a byte `v`: a register's value or a popped one. -/
def State.jumpTo (s : State) (v : Byte) : State := { s with pc := v.setWidth 9 }

/-- `pc <- pc + n`. -/
def State.skip (s : State) (n : Nat) : State := { s with pc := s.pc + BitVec.ofNat 9 n }

/-- Whether a status is Faulted. -/
def Status.isFaulted : Status → Bool
  | .faulted _ => true
  | .running => false
  | .halted => false

/-- The Advance phase for the instruction whose opcode byte is `b`: when Execute did not fault and `sets_pc = 0`, the program
counter moves past the instruction (44_fetch_decode_execute.md R199). -/
def advance (b : Byte) (o : StepOutcome) : StepOutcome :=
  match o with
  | .next t => if setsPc b || t.status.isFaulted then .next t else .next (t.skip (operandCount b + 1))
  | .fault r => .fault r
  | .refused r => .refused r

/-! ### The trace port (60_exceptions.md R238) -/

/-- What one trace call returns: the pc, the three bytes from it (none for an absent one), the eight registers. -/
structure TraceRecord where
  pc : PcWord
  bytes : Vector (Option Byte) 3
  regs : Vector Byte 8
  deriving DecidableEq, Repr

/-- The trace: a pure read of the state (60_exceptions.md R238). -/
def State.trace (s : State) : TraceRecord :=
  { pc := s.pc
    bytes := #v[s.memRead? s.pc.toNat, s.memRead? (s.pc.toNat + 1), s.memRead? (s.pc.toNat + 2)]
    regs := s.regs }

end Sys2Proof.Machine
end

