-- ==== Sys2Proof/Machine/Flags.lean ====
section
/-! DEFINITION. What CMP writes to FL, the six conditions that read it, and FL as a byte (10_state.md R28, R29). -/

namespace Sys2Proof.Machine

/-- The flags of an unsigned comparison of `a = x[op1]` with `b = x[op2]` (40_alu.md R115). -/
def compareFlags (a b : Byte) : Flags :=
  { l := decide (a.toNat < b.toNat), g := decide (a.toNat > b.toNat), e := decide (a.toNat = b.toNat) }

/-- JEQ's condition (42_handlers.md R166). -/
def Flags.equal (f : Flags) : Bool := f.e

/-- JNE's condition (42_handlers.md R167). -/
def Flags.notEqual (f : Flags) : Bool := !f.e

/-- JGT's condition (42_handlers.md R168). -/
def Flags.greater (f : Flags) : Bool := f.g

/-- JLT's condition (42_handlers.md R169). -/
def Flags.less (f : Flags) : Bool := f.l

/-- JGE's condition (42_handlers.md R170). -/
def Flags.greaterOrEqual (f : Flags) : Bool := f.g || f.e

/-- JLE's condition (42_handlers.md R171). -/
def Flags.lessOrEqual (f : Flags) : Bool := f.l || f.e

/-- FL read as a byte, `0b00000LGE` (10_state.md R28). No instruction reads it so. -/
def Flags.toByte (f : Flags) : Byte :=
  (BitVec.ofBool f.l ++ BitVec.ofBool f.g ++ BitVec.ofBool f.e).setWidth 8

end Sys2Proof.Machine
end

