-- ==== Sys2Proof/Machine/Operands.lean ====
section
/-! DEFINITION. The two operand forms: a register index byte, checked before Execute, and an 8-bit immediate
(30_encoding.md R74 to R76). -/

namespace Sys2Proof.Machine

/-- The register a reg operand byte selects, none for 8 to 255 (10_state.md R25). -/
def regIndex (b : Byte) : Option (Fin 8) :=
  if h : b.toNat < 8 then some ⟨b.toNat, h⟩ else none

/-- The operand byte that selects register `r`. -/
def regByte (r : Fin 8) : Byte := BitVec.ofNat 8 r.val

/-- One reg operand `b` of the instruction with opcode byte `opc`: Execute runs on the register it selects, or the step raises
MalformedInstruction with the byte (44_fetch_decode_execute.md R197). -/
def withReg (opc b : Byte) (s : State) (execute : Fin 8 → StepOutcome) : StepOutcome :=
  match regIndex b with
  | some r => execute r
  | none => raise { kind := .malformedInstruction, opcode := some opc, info := some b.toNat } s

/-- Two reg operands, `op1` checked first (44_fetch_decode_execute.md R197). -/
def withRegs (opc b₁ b₂ : Byte) (s : State) (execute : Fin 8 → Fin 8 → StepOutcome) : StepOutcome :=
  withReg opc b₁ s fun r₁ => withReg opc b₂ s fun r₂ => execute r₁ r₂

/-- The value of an imm8 operand: the whole byte (30_encoding.md R75). -/
def immValue (b : Byte) : Byte := b

end Sys2Proof.Machine
end

