-- ==== Sys2Proof/Machine/Alu.lean ====
section
/-! DEFINITION. The fourteen instructions of the ALU (40_alu.md): Execute phase, after the register check. -/

namespace Sys2Proof.Machine

/-! ### The operations on values: exact on integers, then masked (40_alu.md R100, R118) -/

/-- 40_alu.md R102. -/
def aluAdd (a b : Byte) : Byte := mask8 ((a.toNat : Int) + b.toNat)

/-- 40_alu.md R103. -/
def aluSub (a b : Byte) : Byte := mask8 ((a.toNat : Int) - b.toNat)

/-- 40_alu.md R104. -/
def aluMul (a b : Byte) : Byte := mask8 ((a.toNat : Int) * b.toNat)

/-- The floor quotient, for a divisor that is not 0 (40_alu.md R105). -/
def aluDiv (a b : Byte) : Byte := mask8 ((a.toNat / b.toNat : Nat) : Int)

/-- The remainder, for a divisor that is not 0 (40_alu.md R106). -/
def aluMod (a b : Byte) : Byte := mask8 ((a.toNat % b.toNat : Nat) : Int)

/-- 40_alu.md R107. -/
def aluAnd (a b : Byte) : Byte := a &&& b

/-- 40_alu.md R108. -/
def aluOr (a b : Byte) : Byte := a ||| b

/-- 40_alu.md R109. -/
def aluXor (a b : Byte) : Byte := a ^^^ b

/-- Shift left by the whole value of `b`, not reduced mod 8 (40_alu.md R110). -/
def aluShl (a b : Byte) : Byte := mask8 ((a.toNat <<< b.toNat : Nat) : Int)

/-- Shift right by the whole value of `b`, zeros in (40_alu.md R111). -/
def aluShr (a b : Byte) : Byte := mask8 ((a.toNat >>> b.toNat : Nat) : Int)

/-- 40_alu.md R112. -/
def aluNot (a : Byte) : Byte := ~~~a

/-- 40_alu.md R113. -/
def aluInc (a : Byte) : Byte := mask8 ((a.toNat : Int) + 1)

/-- 40_alu.md R114. -/
def aluDec (a : Byte) : Byte := mask8 ((a.toNat : Int) - 1)

/-! ### The shapes -/

/-- A binary operation: both registers are read, then `x[d]` is written (40_alu.md R100, R101). -/
def binaryOp (opc : Byte) (f : Byte → Byte → Byte) (d s : Byte) (st : State) : StepOutcome :=
  withRegs opc d s st fun d s => .next (st.setReg d (f (st.reg d) (st.reg s)))

/-- A binary operation that raises DivisionByZero on a source value of 0, writing nothing (40_alu.md R101, 60_exceptions.md R221). -/
def dividingOp (opc : Byte) (f : Byte → Byte → Byte) (d s : Byte) (st : State) : StepOutcome :=
  withRegs opc d s st fun d s =>
    if st.reg s = 0 then raise { kind := .divisionByZero, opcode := some opc, info := none } st
    else .next (st.setReg d (f (st.reg d) (st.reg s)))

/-- A unary operation on `x[d]` (40_alu.md R100). -/
def unaryOp (opc : Byte) (f : Byte → Byte) (d : Byte) (st : State) : StepOutcome :=
  withReg opc d st fun d => .next (st.setReg d (f (st.reg d)))

/-! ### The instructions -/

/-- ADD (40_alu.md R102). -/
def execAdd (d s : Byte) (st : State) : StepOutcome := binaryOp Opcode.add aluAdd d s st

/-- SUB (40_alu.md R103). -/
def execSub (d s : Byte) (st : State) : StepOutcome := binaryOp Opcode.sub aluSub d s st

/-- MUL (40_alu.md R104). -/
def execMul (d s : Byte) (st : State) : StepOutcome := binaryOp Opcode.mul aluMul d s st

/-- DIV (40_alu.md R105). -/
def execDiv (d s : Byte) (st : State) : StepOutcome := dividingOp Opcode.div aluDiv d s st

/-- MOD (40_alu.md R106). -/
def execMod (d s : Byte) (st : State) : StepOutcome := dividingOp Opcode.mod aluMod d s st

/-- INC (40_alu.md R113). -/
def execInc (d : Byte) (st : State) : StepOutcome := unaryOp Opcode.inc aluInc d st

/-- DEC (40_alu.md R114). -/
def execDec (d : Byte) (st : State) : StepOutcome := unaryOp Opcode.dec aluDec d st

/-- CMP: the flags are written, no register is (40_alu.md R115). -/
def execCmp (d s : Byte) (st : State) : StepOutcome :=
  withRegs Opcode.cmp d s st fun d s => .next { st with flags := compareFlags (st.reg d) (st.reg s) }

/-- AND (40_alu.md R107). -/
def execAnd (d s : Byte) (st : State) : StepOutcome := binaryOp Opcode.and aluAnd d s st

/-- NOT (40_alu.md R112). -/
def execNot (d : Byte) (st : State) : StepOutcome := unaryOp Opcode.not aluNot d st

/-- OR (40_alu.md R108). -/
def execOr (d s : Byte) (st : State) : StepOutcome := binaryOp Opcode.or aluOr d s st

/-- XOR (40_alu.md R109). -/
def execXor (d s : Byte) (st : State) : StepOutcome := binaryOp Opcode.xor aluXor d s st

/-- SHL (40_alu.md R110). -/
def execShl (d s : Byte) (st : State) : StepOutcome := binaryOp Opcode.shl aluShl d s st

/-- SHR (40_alu.md R111). -/
def execShr (d s : Byte) (st : State) : StepOutcome := binaryOp Opcode.shr aluShr d s st

end Sys2Proof.Machine
end

