-- ==== Sys2Proof/Machine/Handlers.lean ====
section
/-! DEFINITION. LDI, PRN, HLT and the jumps (42_handlers.md): Execute phase, after the register check. -/

namespace Sys2Proof.Machine

/-- LDI: the immediate is used whole and never checked (42_handlers.md R161). -/
def execLdi (r imm : Byte) (s : State) : StepOutcome :=
  withReg Opcode.ldi r s fun r => .next (s.setReg r (immValue imm))

/-- PRN: the register's value is appended to `out` (42_handlers.md R162). -/
def execPrn (r : Byte) (s : State) : StepOutcome :=
  withReg Opcode.prn r s fun r => .next { s with out := s.out ++ [s.reg r] }

/-- HLT: the status becomes Halted; the Advance phase still runs (42_handlers.md R163). -/
def execHlt (s : State) : StepOutcome := .next { s with status := .halted }

/-- JMP (42_handlers.md R164). -/
def execJmp (r : Byte) (s : State) : StepOutcome :=
  withReg Opcode.jmp r s fun r => .next (s.jumpTo (s.reg r))

/-- The common form of the conditional jumps: to the register's value, or past the instruction's two bytes (42_handlers.md R165). -/
def conditionalJump (opc : Byte) (cond : Flags → Bool) (r : Byte) (s : State) : StepOutcome :=
  withReg opc r s fun r => .next (if cond s.flags then s.jumpTo (s.reg r) else s.skip 2)

/-- JEQ (42_handlers.md R166). -/
def execJeq (r : Byte) (s : State) : StepOutcome := conditionalJump Opcode.jeq Flags.equal r s

/-- JNE (42_handlers.md R167). -/
def execJne (r : Byte) (s : State) : StepOutcome := conditionalJump Opcode.jne Flags.notEqual r s

/-- JGT (42_handlers.md R168). -/
def execJgt (r : Byte) (s : State) : StepOutcome := conditionalJump Opcode.jgt Flags.greater r s

/-- JLT (42_handlers.md R169). -/
def execJlt (r : Byte) (s : State) : StepOutcome := conditionalJump Opcode.jlt Flags.less r s

/-- JLE (42_handlers.md R171). -/
def execJle (r : Byte) (s : State) : StepOutcome := conditionalJump Opcode.jle Flags.lessOrEqual r s

/-- JGE (42_handlers.md R170). -/
def execJge (r : Byte) (s : State) : StepOutcome := conditionalJump Opcode.jge Flags.greaterOrEqual r s

end Sys2Proof.Machine
end

