-- ==== Sys2Proof/Machine/Stack.lean ====
section
/-! DEFINITION. PUSH, POP, CALL and RET (41_stack.md): Execute phase, after the register check. -/

namespace Sys2Proof.Machine

/-- PUSH: the register is read before SP changes, so PUSH R7 stores the old SP (41_stack.md R144). -/
def execPush (r : Byte) (s : State) : StepOutcome :=
  withReg Opcode.push r s fun r =>
    match push (s.reg r) s with
    | .ok t => .next t
    | .error a => raise { kind := .stackOverflow, opcode := some Opcode.push, info := some a.toNat } s

/-- POP: the register is written after SP's increment, so POP R7 leaves the popped value (41_stack.md R145). -/
def execPop (r : Byte) (s : State) : StepOutcome :=
  withReg Opcode.pop r s fun r =>
    match pop s with
    | .ok (v, t) => .next (t.setReg r v)
    | .error a => raise { kind := .stackUnderflow, opcode := some Opcode.pop, info := some a.toNat } s

/-- The return address of a CALL: the address after its two bytes (41_stack.md R146). -/
def State.returnAddress (s : State) : Nat := s.pc.toNat + 2

/-- CALL: a return address that no byte holds is refused first, then the push, then the target is read (41_stack.md R146). -/
def execCall (r : Byte) (s : State) : StepOutcome :=
  withReg Opcode.call r s fun r =>
    if s.returnAddress > 255 then
      raise { kind := .invalidMemoryAddress, opcode := some Opcode.call, info := some s.returnAddress } s
    else
      match push (BitVec.ofNat 8 s.returnAddress) s with
      | .ok t => .next (t.jumpTo (t.reg r))
      | .error a => raise { kind := .stackOverflow, opcode := some Opcode.call, info := some a.toNat } s

/-- RET (41_stack.md R147). -/
def execRet (s : State) : StepOutcome :=
  match pop s with
  | .ok (v, t) => .next (t.jumpTo v)
  | .error a => raise { kind := .stackUnderflow, opcode := some Opcode.ret, info := some a.toNat } s

end Sys2Proof.Machine
end

