-- ==== Sys2Proof/Machine/Dispatch.lean ====
section
/-! DEFINITION. The register check and the Execute phase of every instruction, one arm per constructor of Instr
(44_fetch_decode_execute.md R197, R198). -/

namespace Sys2Proof.Machine

def exec (i : Instr) (st : State) : Host.Outcome State Fault Refusal :=
  match i with
  | .add d s => Sys2Proof.Machine.execAdd d s st
  | .sub d s => Sys2Proof.Machine.execSub d s st
  | .mul d s => Sys2Proof.Machine.execMul d s st
  | .div d s => Sys2Proof.Machine.execDiv d s st
  | .mod d s => Sys2Proof.Machine.execMod d s st
  | .inc d => Sys2Proof.Machine.execInc d st
  | .dec d => Sys2Proof.Machine.execDec d st
  | .cmp d s => Sys2Proof.Machine.execCmp d s st
  | .and d s => Sys2Proof.Machine.execAnd d s st
  | .not d => Sys2Proof.Machine.execNot d st
  | .or d s => Sys2Proof.Machine.execOr d s st
  | .xor d s => Sys2Proof.Machine.execXor d s st
  | .shl d s => Sys2Proof.Machine.execShl d s st
  | .shr d s => Sys2Proof.Machine.execShr d s st
  | .push r => Sys2Proof.Machine.execPush r st
  | .pop r => Sys2Proof.Machine.execPop r st
  | .call r => Sys2Proof.Machine.execCall r st
  | .ret => Sys2Proof.Machine.execRet st
  | .ldi r imm => Sys2Proof.Machine.execLdi r imm st
  | .prn r => Sys2Proof.Machine.execPrn r st
  | .hlt => Sys2Proof.Machine.execHlt st
  | .jmp r => Sys2Proof.Machine.execJmp r st
  | .jeq r => Sys2Proof.Machine.execJeq r st
  | .jne r => Sys2Proof.Machine.execJne r st
  | .jgt r => Sys2Proof.Machine.execJgt r st
  | .jlt r => Sys2Proof.Machine.execJlt r st
  | .jle r => Sys2Proof.Machine.execJle r st
  | .jge r => Sys2Proof.Machine.execJge r st

end Sys2Proof.Machine
end

