-- ==== Sys2Proof/Machine/Fetch.lean ====
section
/-! DEFINITION. The phases before Execute: fetch, the length check, the operand fetch and the dispatch, with the fault each can
find, in the order of 44_fetch_decode_execute.md R200. -/

namespace Sys2Proof.Machine

/-- Operand bytes `a`, `a + 1`, … (`n` of them), or the first of these addresses that is past memory (44_fetch_decode_execute.md R195). -/
def fetchOperands (s : State) (a : Nat) : Nat → Except Nat (List Byte)
  | 0 => .ok []
  | n + 1 =>
    match s.memRead? a with
    | none => .error a
    | some v =>
      match fetchOperands s (a + 1) n with
      | .error e => .error e
      | .ok rest => .ok (v :: rest)

/-- The bytes of the instruction at `pc` (44_fetch_decode_execute.md R192, R194, R195). -/
def fetchBytes (s : State) : Except Trap (List Byte) :=
  match s.memRead? s.pc.toNat with
  | none => .error { kind := .invalidMemoryAddress, opcode := none, info := some s.pc.toNat }
  | some b =>
    if operandCount b = 3 then .error { kind := .malformedInstruction, opcode := some b, info := none }
    else
      match fetchOperands s (s.pc.toNat + 1) (operandCount b) with
      | .error a => .error { kind := .invalidMemoryAddress, opcode := some b, info := some a }
      | .ok ops => .ok (b :: ops)

/-- The fault for bytes the decoder rejects (44_fetch_decode_execute.md R194, R195, R196). Of whole fetched instructions only the
last two cases arise: `fetchBytes` has found the others before. -/
def rejectTrap (pc : PcWord) (bytes : List Byte) : Reject → Trap
  | .noBytes => { kind := .invalidMemoryAddress, opcode := none, info := some pc.toNat }
  | .malformedLength => { kind := .malformedInstruction, opcode := bytes.head?, info := none }
  | .missingOperand k => { kind := .invalidMemoryAddress, opcode := bytes.head?, info := some (pc.toNat + k) }
  | .unsupportedAlu => { kind := .unsupportedAluOperation, opcode := bytes.head?, info := none }
  | .unimplemented => { kind := .unimplementedOpcode, opcode := bytes.head?, info := none }

/-- The instruction at `pc`, or the fault of the phases before Execute (44_fetch_decode_execute.md R202). -/
def fetchInstr (s : State) : Except Trap Instr :=
  match fetchBytes s with
  | .error t => .error t
  | .ok bytes =>
    match decode bytes with
    | .error e => .error (rejectTrap s.pc bytes e)
    | .ok (i, _) => .ok i

/-- The state with the bytes of `code` placed where the next fetch reads, and the status a fetch needs (log entry 10). -/
def State.withCodeAtPc (s : State) (code : List Byte) : State :=
  { s with mem := Memory.writeBytes s.mem s.pc.toNat code, status := .running }

end Sys2Proof.Machine
end

