-- ==== Sys2Proof/Machine/Step.lean ====
section
/-! DEFINITION. The step of the control state machine (44_fetch_decode_execute.md R190, R191, R202). -/

namespace Sys2Proof.Machine

/-- One step: Fetch, Decode, Operand fetch, Dispatch, register check and Execute (`exec`), Advance. A fault of any phase is a next
state whose status is Faulted; in a terminal state there is no step. -/
def step (s : State) : Host.Outcome State Fault Refusal :=
  match s.status with
  | .halted => .fault .noStepHalted
  | .faulted r => .fault (.noStepFaulted r)
  | .running =>
    match fetchInstr s with
    | .error t => raise t s
    | .ok i => advance (opcodeOf i) (exec i s)

/-- The state with an instruction word of `nbits` bits (bit 0 the least significant bit of the first byte, zeros above) stored at
the program counter, so that the next step fetches and runs it. -/
def State.withFetchWord (s : State) (nbits w : Nat) : State := s.withCodeAtPc (bytesOfTableWord nbits w)

end Sys2Proof.Machine
end

