-- ==== Sys2Proof/Machine/HostPort.lean ====
section
/-! DEFINITION. What the host does to one instance between steps: construct, load, run with a stop request
(70_reset_and_hazards.md R250 to R257, 44_fetch_decode_execute.md R203 to R205). The host's bookkeeping stands here, beside the
core's state, because the spec's state tuple does not hold it (log entry 8). -/

namespace Sys2Proof.Machine

/-- How far the host's protocol with an instance has come (70_reset_and_hazards.md R252, R253, R255). -/
inductive Phase where
  /-- Constructed, no load made, no step taken. -/
  | constructed
  /-- The one load was made, no step taken. -/
  | loaded
  /-- The load failed; `run` is refused. -/
  | loadFailed
  /-- A step has been taken. -/
  | started
  deriving DecidableEq, Repr

/-- One CPU instance as the host holds it. -/
structure CpuInstance where
  core : State
  phase : Phase
  deriving DecidableEq, Repr

/-- `construct()` (70_reset_and_hazards.md R250, R251). -/
def CpuInstance.construct : CpuInstance := { core := State.reset, phase := .constructed }

/-- What `load` reports to the host. -/
inductive LoadResult where
  | loaded
  /-- A loader fault with its recorded information (70_reset_and_hazards.md R255). -/
  | failed (kind : FaultKind) (info : Nat)
  /-- Too late, or not the first load (R253). -/
  | refused
  deriving DecidableEq, Repr

/-- The core with an image written from address 0 and `stack_limit` at its length (70_reset_and_hazards.md R254, R256). -/
def State.withImage (s : State) (image : List Byte) (h : image.length ≤ Config.maxImage) : State :=
  { s with mem := Memory.writeBytes s.mem 0 image
           stackLimit := ⟨image.length, Nat.lt_succ_of_le h⟩ }

/-- `load(image)` (70_reset_and_hazards.md R253 to R256). -/
def CpuInstance.load (image : List Byte) (c : CpuInstance) : LoadResult × CpuInstance :=
  match c.phase with
  | .constructed =>
    if h : image.length ≤ Config.maxImage then (.loaded, { core := c.core.withImage image h, phase := .loaded })
    else (.failed .programTooLarge image.length, { c with phase := .loadFailed })
  | .loaded => (.refused, c)
  | .loadFailed => (.refused, c)
  | .started => (.refused, c)

/-- `load(image)` with `stack_limit` taken as an argument instead of the image's length (70_reset_and_hazards.md R256, 00_scope.md
R8). -/
def CpuInstance.loadWithLimit (limit : Fin 257) (image : List Byte) (c : CpuInstance) : LoadResult × CpuInstance :=
  match c.load image with
  | (.loaded, d) => (.loaded, { d with core := { d.core with stackLimit := limit } })
  | other => other

/-- What `run` returns. -/
inductive RunResult where
  /-- The run ended, by HLT (44_fetch_decode_execute.md R203, R205). -/
  | halted
  /-- The run ended, by a fault. -/
  | faulted (record : FaultRecord)
  /-- The host's stop request was set; the run has not ended (R204). -/
  | stopped
  /-- The given polls are used up and the run has not ended (log entry 9). -/
  | unfinished
  /-- `run` after a failed load (70_reset_and_hazards.md R255). -/
  | refused
  deriving DecidableEq, Repr

/-- The loop of `run`: while the status is Running the stop request is polled before each Fetch, `polls` holding the answers in
order; a false poll takes one step (44_fetch_decode_execute.md R203, R204). -/
def CpuInstance.runLoop : List Bool → CpuInstance → RunResult × CpuInstance
  | [], c =>
    match c.core.status with
    | .halted => (.halted, c)
    | .faulted r => (.faulted r, c)
    | .running => (.unfinished, c)
  | stop :: polls, c =>
    match c.core.status with
    | .halted => (.halted, c)
    | .faulted r => (.faulted r, c)
    | .running =>
      if stop then (.stopped, c)
      else
        match step c.core with
        | .next t => CpuInstance.runLoop polls { core := t, phase := .started }
        | .fault _ => (.unfinished, c)
        | .refused _ => (.unfinished, c)

/-- `run()` under the host's stop requests (44_fetch_decode_execute.md R203, R204; 70_reset_and_hazards.md R255, R257). -/
def CpuInstance.run (polls : List Bool) (c : CpuInstance) : RunResult × CpuInstance :=
  match c.phase with
  | .loadFailed => (.refused, c)
  | .constructed => c.runLoop polls
  | .loaded => c.runLoop polls
  | .started => c.runLoop polls

end Sys2Proof.Machine
end

