-- ==== Sys2Proof/Safety.lean ====
section
/-! DEFINITION. What claims about steps and runs are stated in: the invariant, the registers an instruction may write, runs and
how they end. -/

namespace Sys2Proof

open Machine

/-- FL as a run leaves it: no flag before the first CMP, exactly one after it (10_state.md R29). -/
def Machine.Flags.legal (f : Flags) : Bool := !(f.l && f.g) && !(f.l && f.e) && !(f.g && f.e)

/-- The invariant of every step: memory in canonical form inside 0 to 255, the program counter in its range (10_state.md R26),
legal flags (R29), and a fault record that tells the truth about the state it stands in (R31, 60_exceptions.md R228). -/
structure Inv (s : State) : Prop where
  memory : Memory.wf s.mem = true
  pcRange : s.pc.toNat ≤ 256
  flags : s.flags.legal = true
  record : ∀ r, s.status = .faulted r →
    r.faultPc = s.pc ∧ r.opcode = s.memRead? s.pc.toNat ∧ r.reason ≠ .programTooLarge

/-- The bytes of instruction `i` stand at the program counter, all of them inside memory. -/
def Machine.InstrAt (s : State) (i : Instr) : Prop :=
  ∀ k, k < (encode i).length → s.memRead? (s.pc.toNat + k) = (encode i)[k]?

/-- The state a fault leaves: the status is Faulted with the record of 10_state.md R31, everything else as before (60_exceptions.md
R226). -/
def Machine.State.faultedWith (s : State) (reason : FaultKind) (opcode : Option Byte) (info : Option Nat) : State :=
  { s with status := .faulted { reason := reason, faultPc := s.pc, opcode := opcode, info := info } }

/-- The 28 assigned opcode bytes, written out from 44_fetch_decode_execute.md R196: the ALU's fourteen, then the handlers'. -/
def assignedBytes : List Byte :=
  [0xA0, 0xA1, 0xA2, 0xA3, 0xA4, 0x65, 0x66, 0xA7, 0xA8, 0x69, 0xAA, 0xAB, 0xAC, 0xAD] ++
  [0x45, 0x46, 0x50, 0x11, 0x82, 0x47, 0x01, 0x54, 0x55, 0x56, 0x57, 0x58, 0x59, 0x5A]

/-- The registers an instruction may write, by the access table of 10_state.md R23, as operand bytes. -/
def Instr.registersWritten : Instr → List Byte
  | .add d _ => [d]
  | .sub d _ => [d]
  | .mul d _ => [d]
  | .div d _ => [d]
  | .mod d _ => [d]
  | .inc d => [d]
  | .dec d => [d]
  | .cmp _ _ => []
  | .and d _ => [d]
  | .not d => [d]
  | .or d _ => [d]
  | .xor d _ => [d]
  | .shl d _ => [d]
  | .shr d _ => [d]
  | .push _ => [7]
  | .pop r => [7, r]
  | .call _ => [7]
  | .ret => [7]
  | .ldi r _ => [r]
  | .prn _ => []
  | .hlt => []
  | .jmp _ => []
  | .jeq _ => []
  | .jne _ => []
  | .jgt _ => []
  | .jlt _ => []
  | .jle _ => []
  | .jge _ => []

/-- The state after at most `k` steps: a run stays where it ends (44_fetch_decode_execute.md R203, R205). -/
def runSteps : Nat → State → State
  | 0, s => s
  | k + 1, s =>
    match step s with
    | .next t => runSteps k t
    | .fault _ => s
    | .refused _ => s

/-- A normal end: the run halts (44_fetch_decode_execute.md R205). -/
def EndsNormally (s : State) : Prop := ∃ k, (runSteps k s).status = .halted

/-- A faulted end (44_fetch_decode_execute.md R205). -/
def EndsFaulted (s : State) : Prop := ∃ k r, (runSteps k s).status = .faulted r

/-- A run that does not end (44_fetch_decode_execute.md R205). -/
def NeverEnds (s : State) : Prop := ∀ k, (runSteps k s).status = .running

end Sys2Proof
end

