-- ==== Sys2Proof/Certificates/Slice0/Obligations.lean ====
section
/-! DEFINITION. The statements for the provers: what the numbered rules of spec/ say the machine does. Where a statement rests on
a decision the spec calls its own (92_eei_decisions.md), its docstring names the decision. -/

open Sys2Proof Sys2Proof.Machine

/-- After reset R0 to R6 hold 0, R7 holds 0xF7, pc is 0, the flags are 0, every cell of memory reads 0, the status is
Running, out is empty and stack_limit is 0. The values of FL, status, out and stack_limit are the spec's own decisions
D3, D21, D15, D8. (10_state.md R37; 70_reset_and_hazards.md R250, R251) -/
def Obligations.ResetLeavesStatedValues : Prop :=
  (∀ r : Fin 8, r ≠ 7 → State.reset.reg r = 0) ∧ State.reset.reg 7 = 0xF7 ∧ State.reset.pc = 0 ∧
  State.reset.flags = ⟨false, false, false⟩ ∧ (∀ a, a < 256 → State.reset.memRead? a = some 0) ∧
  State.reset.status = .running ∧ State.reset.out = [] ∧ State.reset.stackLimit = 0

/-- State.reset meets Inv: memory in canonical form, pc at most 256, legal flags, a true fault record. (10_state.md R26,
R29, R31, R37) -/
def Obligations.ResetMeetsInvariant : Prop :=
  Inv State.reset

/-- From every state that meets Inv (memory canonical and inside 0..255, pc at most 256, at most one of L, G, E set, a
fault record whose fault_pc is pc and whose opcode is the byte at pc, and never ProgramTooLarge) a step leads to a
state that meets it. The range of pc and the record's form are the spec's decisions D5 and D11. (10_state.md R26, R29,
R31; 44_fetch_decode_execute.md R199, R201; 60_exceptions.md R228; 20_memory.md R50) -/
def Obligations.StepKeepsInvariant : Prop :=
  ∀ s t : State, Inv s → step s = .next t → Inv t

/-- For every instruction, with every operand byte at every value, decoding its encoding followed by any bytes gives the
instruction and those bytes. The opcode bytes are the spec's decision D1. (30_encoding.md R70, R71, R73, R77, R84) -/
def Obligations.DecodeReturnsEncodedInstr : Prop :=
  ∀ (i : Instr) (rest : List Byte), decode (encode i ++ rest) = .ok (i, rest)

/-- Whatever bytes decode to an instruction and a rest are that instruction's encoding followed by that rest: no byte list
has a second reading. The opcode bytes are the spec's decision D1. (30_encoding.md R70, R72, R73, R83, R84) -/
def Obligations.EncodeReturnsDecodedBytes : Prop :=
  ∀ (bytes : List Byte) (i : Instr) (rest : List Byte), decode bytes = .ok (i, rest) → encode i ++ rest = bytes

/-- Thirteen encodings written out from the spec's table (ADD, INC, CMP, NOT, SHR, PUSH, POP, CALL, RET, LDI, PRN, HLT,
JGE) decode to those instructions with their operands in order. The opcode bytes are the spec's decision D1.
(30_encoding.md R77; 95_test_vectors.md L2.1) -/
def Obligations.SpecWordsDecode : Prop :=
  decode [0xA0, 1, 2] = .ok (.add 1 2, []) ∧ decode [0x65, 3] = .ok (.inc 3, []) ∧
  decode [0xA7, 4, 5] = .ok (.cmp 4 5, []) ∧ decode [0x69, 6] = .ok (.not 6, []) ∧
  decode [0xAD, 7, 0] = .ok (.shr 7 0, []) ∧ decode [0x45, 1] = .ok (.push 1, []) ∧
  decode [0x46, 2] = .ok (.pop 2, []) ∧ decode [0x50, 1] = .ok (.call 1, []) ∧ decode [0x11] = .ok (.ret, []) ∧
  decode [0x82, 0, 8] = .ok (.ldi 0 8, []) ∧ decode [0x47, 0] = .ok (.prn 0, []) ∧ decode [0x01] = .ok (.hlt, []) ∧
  decode [0x5A, 7] = .ok (.jge 7, [])

/-- For every instruction, bits 7:6 of its opcode byte give the number of its operand bytes, bit 5 is set exactly for the
fourteen ALU operations, bit 4 is set exactly for CALL, RET and the seven jumps, and its whole length is one byte more
than the operand count; the opcode byte is one of the 28 assigned bytes, which are distinct. The opcode bytes are the
spec's decision D1. (30_encoding.md R71, R80, R84) -/
def Obligations.OpcodeBitsFitInstruction : Prop :=
  assignedBytes.Nodup ∧ assignedBytes.length = 28 ∧ ∀ i : Instr,
    opcodeOf i ∈ assignedBytes ∧
    operandCount (opcodeOf i) = (operandBytes i).length ∧ (encode i).length = 1 + operandCount (opcodeOf i) ∧
    (isAlu (opcodeOf i) = true ↔
      ∃ d s, i = .add d s ∨ i = .sub d s ∨ i = .mul d s ∨ i = .div d s ∨ i = .mod d s ∨ i = .inc d ∨ i = .dec d ∨
        i = .cmp d s ∨ i = .and d s ∨ i = .not d ∨ i = .or d s ∨ i = .xor d s ∨ i = .shl d s ∨ i = .shr d s) ∧
    (setsPc (opcodeOf i) = true ↔
      i = .ret ∨ ∃ r, i = .call r ∨ i = .jmp r ∨ i = .jeq r ∨ i = .jne r ∨ i = .jgt r ∨ i = .jlt r ∨ i = .jle r ∨ i = .jge r)

/-- Given enough bytes after it, an assigned byte (the 28 of the dispatch) decodes to an instruction with that opcode
byte; a byte with operand_count 3 is rejected as malformed whatever its other bits; any other byte is rejected as an
unsupported ALU operation when bit 5 is 1 and as unimplemented when it is 0. The bytes and the choice for
operand_count 3 are the spec's decisions D1, D2, D6. (30_encoding.md R72, R73, R81, R82; 44_fetch_decode_execute.md
R194, R196) -/
def Obligations.EveryByteHasOneClass : Prop :=
  ∀ (b o₁ o₂ : Byte) (rest : List Byte),
    (b ∈ assignedBytes → ∃ i, opcodeOf i = b ∧
      decode (b :: o₁ :: o₂ :: rest) = .ok (i, (o₁ :: o₂ :: rest).drop (operandCount b))) ∧
    (192 ≤ b.toNat → decode (b :: o₁ :: o₂ :: rest) = .error .malformedLength) ∧
    (b.toNat < 192 → b ∉ assignedBytes → b.getLsbD 5 = true → decode (b :: o₁ :: o₂ :: rest) = .error .unsupportedAlu) ∧
    (b.toNat < 192 → b ∉ assignedBytes → b.getLsbD 5 = false → decode (b :: o₁ :: o₂ :: rest) = .error .unimplemented)

/-- In a Running state whose bytes at pc are the encoding of i, the step is exec of i at that state followed by the
Advance phase for i's opcode byte. (44_fetch_decode_execute.md R190, R192, R193, R195, R196, R198, R202; 20_memory.md
R53, R61) -/
def Obligations.StepRunsDecodedInstr : Prop :=
  ∀ (s : State) (i : Instr), s.status = .running → InstrAt s i → step s = advance (opcodeOf i) (exec i s)

/-- In a Running state with instruction i at pc, let t be the state Execute answers. If t is Faulted or i's sets_pc is 1,
the step's result is t. Otherwise the step's result u is t with its pc moved to the instruction's pc + operand_count +
1, which is at most 256 and is not wrapped (HLT, which leaves Halted, included), and if it is 256 and u is Running the
next step's Fetch faults with InvalidMemoryAddress. (R199) -/
def Obligations.AdvanceMovesPastInstr : Prop :=
  ∀ (s : State) (i : Instr) (t : State), s.status = .running → InstrAt s i → exec i s = .next t →
    (t.status.isFaulted = true ∨ setsPc (opcodeOf i) = true → step s = .next t) ∧
    (t.status.isFaulted = false → setsPc (opcodeOf i) = false →
      ∃ u, step s = .next u ∧ u = { t with pc := u.pc } ∧
        u.pc.toNat = s.pc.toNat + operandCount (opcodeOf i) + 1 ∧ u.pc.toNat ≤ 256 ∧
        (u.pc.toNat = 256 → u.status = .running →
          ∃ w r, step u = .next w ∧ w.status = .faulted r ∧ r.reason = .invalidMemoryAddress))

/-- In a Running state with pc 256 or more, the step only sets the status to Faulted with InvalidMemoryAddress(pc) and no
opcode. The unwrapped pc is the spec's decision D5. (44_fetch_decode_execute.md R192; 60_exceptions.md R227;
20_memory.md R51) -/
def Obligations.FetchPastMemoryFaults : Prop :=
  ∀ s : State, s.status = .running → 256 ≤ s.pc.toNat →
    step s = .next (s.faultedWith .invalidMemoryAddress none (some s.pc.toNat))

/-- In a Running state whose byte at pc is 0xC0 or more, the step only sets the status to Faulted with
MalformedInstruction and no info, also where operand bytes would lie past memory. The fault's name is the spec's
decision D6. (44_fetch_decode_execute.md R194, R200; 60_exceptions.md R224) -/
def Obligations.OperandCountThreeFaults : Prop :=
  ∀ (s : State) (b : Byte), s.status = .running → s.memRead? s.pc.toNat = some b → 192 ≤ b.toNat →
    step s = .next (s.faultedWith .malformedInstruction (some b) none)

/-- In a Running state whose byte b at pc has operand_count at most 2 and whose last operand byte would lie past 255, the
step only sets the status to Faulted with InvalidMemoryAddress(256) and opcode b, whether b is assigned or not. The
priority is the spec's decision D10. (44_fetch_decode_execute.md R195, R200; 60_exceptions.md R227) -/
def Obligations.OperandFetchPastMemoryFaults : Prop :=
  ∀ (s : State) (b : Byte), s.status = .running → s.memRead? s.pc.toNat = some b → b.toNat < 192 →
    256 ≤ s.pc.toNat + operandCount b →
    step s = .next (s.faultedWith .invalidMemoryAddress (some b) (some 256))

/-- In a Running state whose byte b at pc is not assigned, has operand_count at most 2 and has its operand bytes inside
memory, the step only sets the status to Faulted: UnsupportedAluOperation when bit 5 is 1, UnimplementedOpcode when it
is 0, opcode b, no info, whatever the operand bytes are. The assigned bytes are the spec's decisions D1 and D2.
(44_fetch_decode_execute.md R196, R200; 42_handlers.md R172; 40_alu.md R117; 60_exceptions.md R222, R223;
30_encoding.md R82) -/
def Obligations.UnassignedByteFaults : Prop :=
  ∀ (s : State) (b : Byte), s.status = .running → s.memRead? s.pc.toNat = some b → b.toNat < 192 →
    s.pc.toNat + operandCount b ≤ 255 → b ∉ assignedBytes →
    step s = .next (s.faultedWith (if b.getLsbD 5 then .unsupportedAluOperation else .unimplementedOpcode) (some b) none)

/-- For every instruction and state, if b is the first reg operand byte (op1 before op2) that is 8 or more, exec answers
the state with only its status changed, to Faulted with MalformedInstruction(b) and the instruction's opcode byte; an
instruction for which this happens is exactly one that is not well formed. The rule is the spec's decision D7.
(44_fetch_decode_execute.md R197, R200; 30_encoding.md R74, R76; 10_state.md R25; 60_exceptions.md R224) -/
def Obligations.RegisterByteAboveSevenFaults : Prop :=
  ∀ (i : Instr) (s : State),
    (∀ b, i.regOperands.find? (fun b => decide (8 ≤ b.toNat)) = some b →
      exec i s = .next (s.faultedWith .malformedInstruction (some (opcodeOf i)) (some b.toNat))) ∧
    (i.wellFormed = false ↔ ∃ b, i.regOperands.find? (fun b => decide (8 ≤ b.toNat)) = some b)

/-- A state has a next state by step exactly when its status is Running; in Halted and Faulted the step reads and writes
nothing: its answer is no next state and depends on the status alone. (R191) -/
def Obligations.StepDefinedExactlyWhenRunning : Prop :=
  (∀ s : State, (∃ t, step s = .next t) ↔ s.status = .running) ∧
  (∀ s s' : State, s.status ≠ .running → s'.status = s.status → step s' = step s)

/-- If a step leads to a Faulted state t, then t is the state before with only the status changed, the record's fault_pc
is that state's pc, its opcode is the byte at pc (none when pc is past memory), and t has no next state. The record's
form is the spec's decision D11. (60_exceptions.md R226, R231, R232; 44_fetch_decode_execute.md R201; 10_state.md R31) -/
def Obligations.FaultChangesOnlyStatus : Prop :=
  ∀ (s t : State) (r : FaultRecord), step s = .next t → t.status = .faulted r →
    t = { s with status := .faulted r } ∧ r.faultPc = s.pc ∧ r.opcode = s.memRead? s.pc.toNat ∧ ∀ u, step t ≠ .next u

/-- If a step leads to a Faulted state, the record's info is none for DivisionByZero, UnsupportedAluOperation and
UnimplementedOpcode; none or a byte of 8 or more for MalformedInstruction; a byte address outside the stack region for
StackOverflow and StackUnderflow; an address of 256 or more for InvalidMemoryAddress; and the kind is never
ProgramTooLarge. The record's form is the spec's decision D11. (60_exceptions.md R220, R224, R225, R227, R228;
10_state.md R31) -/
def Obligations.FaultRecordInfoFitsReason : Prop :=
  ∀ (s t : State) (r : FaultRecord), step s = .next t → t.status = .faulted r →
    match r.reason with
    | .divisionByZero => r.info = none
    | .unsupportedAluOperation => r.info = none
    | .unimplementedOpcode => r.info = none
    | .malformedInstruction => r.info = none ∨ ∃ b : Byte, r.info = some b.toNat ∧ 8 ≤ b.toNat
    | .stackOverflow => ∃ a : Byte, r.info = some a.toNat ∧ ¬ (s.stackLimit.val ≤ a.toNat ∧ a.toNat ≤ 0xF6)
    | .stackUnderflow => ∃ a : Byte, r.info = some a.toNat ∧ ¬ (s.stackLimit.val ≤ a.toNat ∧ a.toNat ≤ 0xF6)
    | .invalidMemoryAddress => ∃ a, r.info = some a ∧ 256 ≤ a
    | .programTooLarge => False

/-- A step is taken only from Running. It leads to Halted exactly when HLT stands at pc. When it leads to Faulted, nothing
but the status has changed. No step, no run and no load of the host changes the status of an instance that is Halted
or Faulted. (R30) -/
def Obligations.OnlyHltHalts : Prop :=
  (∀ s t : State, step s = .next t →
    s.status = .running ∧ (t.status = .halted ↔ InstrAt s .hlt) ∧
    (∀ r, t.status = .faulted r → t = { s with status := .faulted r })) ∧
  (∀ s t : State, s.status ≠ .running → step s ≠ .next t) ∧
  (∀ (c : CpuInstance) (polls : List Bool), c.core.status ≠ .running → (c.run polls).2 = c) ∧
  (∀ (c : CpuInstance) (image : List Byte), (c.load image).2.core.status = c.core.status)

/-- If a step leads to a Faulted state, pc is unchanged. Otherwise some instruction i stands at pc, and either its sets_pc
is 0 and pc has moved past its operand_count + 1 bytes, or its sets_pc is 1, i is CALL, RET or a jump, and pc is the
value its Execute phase wrote. An instruction is fetched at every pc its bytes stand at: no alignment is asked for.
(R27) -/
def Obligations.PcChangesInTwoWays : Prop :=
  (∀ s t : State, step s = .next t →
    (t.status.isFaulted = true → t.pc = s.pc) ∧
    (t.status.isFaulted = false → ∃ i, InstrAt s i ∧
      ((setsPc (opcodeOf i) = false ∧ t.pc.toNat = s.pc.toNat + operandCount (opcodeOf i) + 1) ∨
       (setsPc (opcodeOf i) = true ∧ exec i s = .next t ∧
         (i = .ret ∨ ∃ r, i = .call r ∨ i = .jmp r ∨ i = .jeq r ∨ i = .jne r ∨ i = .jgt r ∨ i = .jlt r ∨ i = .jle r ∨
           i = .jge r))))) ∧
  (∀ (s : State) (i : Instr), InstrAt s i → fetchInstr s = .ok i)

/-- For every registers d and s, R7 and d = s included, and every state: ADD, SUB and MUL answer the state with x[d]
holding the sum, the difference, the product of the old x[d] and x[s] modulo 256, and nothing else changed. (40_alu.md
R101, R102, R103, R104, R118) -/
def Obligations.AddSubMulResult : Prop :=
  ∀ (d r : Fin 8) (s : State),
    (∃ v : Byte, v.toNat = ((s.reg d).toNat + (s.reg r).toNat) % 256 ∧
      exec (.add (regByte d) (regByte r)) s = .next (s.setReg d v)) ∧
    (∃ v : Byte, v.toNat = ((s.reg d).toNat + 256 - (s.reg r).toNat) % 256 ∧
      exec (.sub (regByte d) (regByte r)) s = .next (s.setReg d v)) ∧
    (∃ v : Byte, v.toNat = ((s.reg d).toNat * (s.reg r).toNat) % 256 ∧
      exec (.mul (regByte d) (regByte r)) s = .next (s.setReg d v))

/-- For every registers d and s and every state: if x[s] is not 0, DIV leaves the floor quotient in x[d] and MOD the
remainder, nothing else changed, and quotient times divisor plus remainder is the old x[d]; if x[s] is 0, each only
sets the status to Faulted with DivisionByZero. The floor quotient and the record's form are the spec's decisions D31,
D11. (40_alu.md R105, R106, R118) -/
def Obligations.DivModResult : Prop :=
  ∀ (d r : Fin 8) (s : State),
    (s.reg r ≠ 0 → ∃ q m : Byte,
      q.toNat * (s.reg r).toNat + m.toNat = (s.reg d).toNat ∧ m.toNat < (s.reg r).toNat ∧
      exec (.div (regByte d) (regByte r)) s = .next (s.setReg d q) ∧
      exec (.mod (regByte d) (regByte r)) s = .next (s.setReg d m)) ∧
    (s.reg r = 0 →
      exec (.div (regByte d) (regByte r)) s = .next (s.faultedWith .divisionByZero (some Opcode.div) none) ∧
      exec (.mod (regByte d) (regByte r)) s = .next (s.faultedWith .divisionByZero (some Opcode.mod) none))

/-- In a Running state with DIV or MOD of registers d and s at pc and x[s] = 0, the step leads to Faulted with
DivisionByZero and x[d] is unmodified. That nothing else changes is FaultChangesOnlyStatus. (R221) -/
def Obligations.DivModByZeroFaults : Prop :=
  ∀ (d r : Fin 8) (s : State), s.status = .running → s.reg r = 0 →
    (InstrAt s (.div (regByte d) (regByte r)) ∨ InstrAt s (.mod (regByte d) (regByte r)) →
      ∃ t f, step s = .next t ∧ t.status = .faulted f ∧ f.reason = .divisionByZero ∧ t.reg d = s.reg d)

/-- For every registers and every state: AND, OR and XOR leave in x[d] the bitwise combination of the old x[d] and x[s],
NOT leaves the complement of x[d], which is 255 minus it; nothing else changes. (40_alu.md R107, R108, R109, R112) -/
def Obligations.BitwiseResult : Prop :=
  ∀ (d r : Fin 8) (s : State),
    (∃ v : Byte, (∀ k, v.getLsbD k = ((s.reg d).getLsbD k && (s.reg r).getLsbD k)) ∧
      exec (.and (regByte d) (regByte r)) s = .next (s.setReg d v)) ∧
    (∃ v : Byte, (∀ k, v.getLsbD k = ((s.reg d).getLsbD k || (s.reg r).getLsbD k)) ∧
      exec (.or (regByte d) (regByte r)) s = .next (s.setReg d v)) ∧
    (∃ v : Byte, (∀ k, v.getLsbD k = ((s.reg d).getLsbD k ^^ (s.reg r).getLsbD k)) ∧
      exec (.xor (regByte d) (regByte r)) s = .next (s.setReg d v)) ∧
    (∃ v : Byte, v.toNat = 255 - (s.reg d).toNat ∧ exec (.not (regByte d)) s = .next (s.setReg d v))

/-- For every registers and every state: SHL leaves x[d] * 2^x[s] modulo 256 and SHR the floor of x[d] / 2^x[s] in x[d],
nothing else changed; with x[s] of 8 or more both leave 0. The unreduced count is the spec's decision D26. (40_alu.md
R110, R111) -/
def Obligations.ShiftResult : Prop :=
  ∀ (d r : Fin 8) (s : State),
    ∃ v w : Byte, v.toNat = ((s.reg d).toNat * 2 ^ (s.reg r).toNat) % 256 ∧
      w.toNat = (s.reg d).toNat / 2 ^ (s.reg r).toNat ∧
      (8 ≤ (s.reg r).toNat → v = 0 ∧ w = 0) ∧
      exec (.shl (regByte d) (regByte r)) s = .next (s.setReg d v) ∧
      exec (.shr (regByte d) (regByte r)) s = .next (s.setReg d w)

/-- For every register, R7 included, and every state: INC leaves x[d] + 1 and DEC x[d] - 1 modulo 256 in x[d], nothing
else changed, with no stack check. (40_alu.md R113, R114) -/
def Obligations.IncDecResult : Prop :=
  ∀ (d : Fin 8) (s : State),
    (∃ v : Byte, v.toNat = ((s.reg d).toNat + 1) % 256 ∧ exec (.inc (regByte d)) s = .next (s.setReg d v)) ∧
    (∃ v : Byte, v.toNat = ((s.reg d).toNat + 255) % 256 ∧ exec (.dec (regByte d)) s = .next (s.setReg d v))

/-- For every registers and every state: CMP answers the state with L, G, E set exactly to less, greater, equal of x[op1]
against x[op2], unsigned, nothing else changed; exactly one of the three is set. The orientation is the spec's
decision D3. (40_alu.md R115; 10_state.md R28, R29) -/
def Obligations.CmpResult : Prop :=
  ∀ (d r : Fin 8) (s : State),
    ∃ f : Flags, exec (.cmp (regByte d) (regByte r)) s = .next { s with flags := f } ∧
      (f.l = true ↔ (s.reg d).toNat < (s.reg r).toNat) ∧ (f.g = true ↔ (s.reg r).toNat < (s.reg d).toNat) ∧
      (f.e = true ↔ s.reg d = s.reg r) ∧
      (f = ⟨true, false, false⟩ ∨ f = ⟨false, true, false⟩ ∨ f = ⟨false, false, true⟩)

/-- For every register r and state, with a = SP - 1 modulo 256: if stack_limit <= a <= 0xF6, PUSH leaves SP = a, the old
x[r] (for R7 the old SP) in cell a, every other register, cell and field unchanged; otherwise it only sets the status
to Faulted with StackOverflow(a). The region and the order for R7 are the spec's decisions D8, D13. (41_stack.md R140,
R142, R144) -/
def Obligations.PushResult : Prop :=
  ∀ (r : Fin 8) (s : State) (a : Nat), a = (s.sp.toNat + 255) % 256 →
    (s.stackLimit.val ≤ a ∧ a ≤ 0xF6 → ∃ t, exec (.push (regByte r)) s = .next t ∧
      t.sp.toNat = a ∧ (∀ q : Fin 8, q ≠ 7 → t.reg q = s.reg q) ∧
      t.memRead? a = some (s.reg r) ∧ (∀ x, x ≠ a → t.memRead? x = s.memRead? x) ∧
      t.pc = s.pc ∧ t.flags = s.flags ∧ t.status = s.status ∧ t.out = s.out ∧ t.stackLimit = s.stackLimit) ∧
    (¬ (s.stackLimit.val ≤ a ∧ a ≤ 0xF6) →
      exec (.push (regByte r)) s = .next (s.faultedWith .stackOverflow (some Opcode.push) (some a)))

/-- For every register r and state: if stack_limit <= SP <= 0xF6, POP leaves the byte at SP in x[r] and, unless r is 7, SP
+ 1 modulo 256 in SP, every other register, all of memory and every other field unchanged; otherwise it only sets the
status to Faulted with StackUnderflow(SP). The region and the order for R7 are the spec's decisions D8, D13.
(41_stack.md R141, R143, R145) -/
def Obligations.PopResult : Prop :=
  ∀ (r : Fin 8) (s : State),
    (s.stackLimit.val ≤ s.sp.toNat ∧ s.sp.toNat ≤ 0xF6 → ∃ t, exec (.pop (regByte r)) s = .next t ∧
      some (t.reg r) = s.memRead? s.sp.toNat ∧ (r ≠ 7 → t.sp.toNat = (s.sp.toNat + 1) % 256) ∧
      (∀ q : Fin 8, q ≠ 7 → q ≠ r → t.reg q = s.reg q) ∧ (∀ x, t.memRead? x = s.memRead? x) ∧
      t.pc = s.pc ∧ t.flags = s.flags ∧ t.status = s.status ∧ t.out = s.out ∧ t.stackLimit = s.stackLimit) ∧
    (¬ (s.stackLimit.val ≤ s.sp.toNat ∧ s.sp.toNat ≤ 0xF6) →
      exec (.pop (regByte r)) s = .next (s.faultedWith .stackUnderflow (some Opcode.pop) (some s.sp.toNat)))

/-- For every register r and state, with a = SP - 1 modulo 256: if pc + 2 is over 255, CALL only raises
InvalidMemoryAddress(pc + 2); else if a is outside stack_limit..0xF6, it only raises StackOverflow(a); else it leaves
SP = a, the byte pc + 2 in cell a, pc = x[r] read after the push (for R7 the new SP), every other register, cell and
field unchanged. Decisions D8, D9, D13 of the spec. (41_stack.md R140, R142, R146; 60_exceptions.md R227) -/
def Obligations.CallResult : Prop :=
  ∀ (r : Fin 8) (s : State) (a : Nat), a = (s.sp.toNat + 255) % 256 →
    (255 < s.pc.toNat + 2 → exec (.call (regByte r)) s =
      .next (s.faultedWith .invalidMemoryAddress (some Opcode.call) (some (s.pc.toNat + 2)))) ∧
    (s.pc.toNat + 2 ≤ 255 → ¬ (s.stackLimit.val ≤ a ∧ a ≤ 0xF6) →
      exec (.call (regByte r)) s = .next (s.faultedWith .stackOverflow (some Opcode.call) (some a))) ∧
    (s.pc.toNat + 2 ≤ 255 → s.stackLimit.val ≤ a ∧ a ≤ 0xF6 → ∃ t, exec (.call (regByte r)) s = .next t ∧
      t.pc.toNat = (if r = 7 then a else (s.reg r).toNat) ∧
      t.sp.toNat = a ∧ (∀ q : Fin 8, q ≠ 7 → t.reg q = s.reg q) ∧
      t.memRead? a = some (BitVec.ofNat 8 (s.pc.toNat + 2)) ∧ (∀ x, x ≠ a → t.memRead? x = s.memRead? x) ∧
      t.flags = s.flags ∧ t.status = s.status ∧ t.out = s.out ∧ t.stackLimit = s.stackLimit)

/-- For every state: if stack_limit <= SP <= 0xF6, RET leaves pc = the byte at SP and SP + 1 modulo 256 in SP, every other
register, all of memory and every other field unchanged; otherwise it only sets the status to Faulted with
StackUnderflow(SP). The region is the spec's decision D8. (41_stack.md R141, R143, R147) -/
def Obligations.RetResult : Prop :=
  ∀ s : State,
    (s.stackLimit.val ≤ s.sp.toNat ∧ s.sp.toNat ≤ 0xF6 → ∃ t, exec .ret s = .next t ∧
      (∃ v : Byte, s.memRead? s.sp.toNat = some v ∧ t.pc.toNat = v.toNat) ∧ t.sp.toNat = (s.sp.toNat + 1) % 256 ∧
      (∀ q : Fin 8, q ≠ 7 → t.reg q = s.reg q) ∧ (∀ x, t.memRead? x = s.memRead? x) ∧
      t.flags = s.flags ∧ t.status = s.status ∧ t.out = s.out ∧ t.stackLimit = s.stackLimit) ∧
    (¬ (s.stackLimit.val ≤ s.sp.toNat ∧ s.sp.toNat ≤ 0xF6) →
      exec .ret s = .next (s.faultedWith .stackUnderflow (some Opcode.ret) (some s.sp.toNat)))

/-- For every register r, immediate and state: LDI leaves the immediate, any byte, in x[r]; PRN appends x[r] to out; HLT
sets the status to Halted; nothing else changes in Execute. (42_handlers.md R161, R162, R163) -/
def Obligations.LdiPrnHltResult : Prop :=
  ∀ (r : Fin 8) (imm : Byte) (s : State),
    exec (.ldi (regByte r) imm) s = .next (s.setReg r imm) ∧
    exec (.prn (regByte r)) s = .next { s with out := s.out ++ [s.reg r] } ∧
    exec .hlt s = .next { s with status := .halted }

/-- For every register r and state, JMP leaves pc = x[r]; JEQ, JNE, JGT, JLT, JGE, JLE leave pc = x[r] when E, not E, G,
L, G or E, L or E holds, and pc + 2 otherwise; nothing else changes. The value pc + 2 is stated for pc up to 256,
unwrapped, which is every pc the invariant admits; for a larger pc only that the jump completes and changes at most
pc, since what exec leaves there is the model's choice (log entry 4). Names, conditions and targets are the spec's
decision D4, the unwrapped pc its decision D5. (42_handlers.md R164, R165, R166, R167, R168, R169, R170, R171;
10_state.md R26) -/
def Obligations.JumpResults : Prop :=
  ∀ (r : Fin 8) (s : State), ∃ taken fallen : State,
    taken = { s with pc := taken.pc } ∧ taken.pc.toNat = (s.reg r).toNat ∧
    fallen = { s with pc := fallen.pc } ∧ (s.pc.toNat ≤ 256 → fallen.pc.toNat = s.pc.toNat + 2) ∧
    exec (.jmp (regByte r)) s = .next taken ∧
    exec (.jeq (regByte r)) s = .next (if s.flags.e = true then taken else fallen) ∧
    exec (.jne (regByte r)) s = .next (if s.flags.e = false then taken else fallen) ∧
    exec (.jgt (regByte r)) s = .next (if s.flags.g = true then taken else fallen) ∧
    exec (.jlt (regByte r)) s = .next (if s.flags.l = true then taken else fallen) ∧
    exec (.jge (regByte r)) s = .next (if s.flags.g = true ∨ s.flags.e = true then taken else fallen) ∧
    exec (.jle (regByte r)) s = .next (if s.flags.l = true ∨ s.flags.e = true then taken else fallen)

/-- Whatever exec answers as a next state, a register that the access table does not name as written by the instruction
(its destination; SP for PUSH, POP, CALL and RET; none for CMP, PRN, HLT and the jumps) holds what it held.
(10_state.md R23; 40_alu.md R101) -/
def Obligations.RegistersWrittenByTable : Prop :=
  ∀ (i : Instr) (s t : State), exec i s = .next t →
    ∀ q : Fin 8, regByte q ∉ i.registersWritten → t.reg q = s.reg q

/-- Whatever exec answers as a next state, the flags are as before unless the instruction is CMP; and whatever a step
leads to, they are as before unless CMP stands at pc. The rule is the spec's decision D23. (10_state.md R29; 40_alu.md
R116) -/
def Obligations.OnlyCmpWritesFlags : Prop :=
  (∀ (i : Instr) (s t : State), (∀ d r, i ≠ .cmp d r) → exec i s = .next t → t.flags = s.flags) ∧
  (∀ s t : State, (∀ d r, ¬ InstrAt s (.cmp d r)) → step s = .next t → t.flags = s.flags)

/-- Whatever exec answers as a next state, every address reads as before, but for PUSH and CALL the one address their push
computes from the SP before it. (20_memory.md R52, R55; 41_stack.md R140; 40_alu.md R101) -/
def Obligations.OnlyPushAndCallStore : Prop :=
  ∀ (i : Instr) (s t : State), exec i s = .next t →
    ∀ a, ((∃ r, i = .push r ∨ i = .call r) → a ≠ s.pushAddress.toNat) → t.memRead? a = s.memRead? a

/-- Whatever exec answers as a next state: pc is unchanged unless the instruction's sets_pc is 1; out is unchanged unless
it is PRN, which at most appends one value; the status is unchanged unless it is HLT or the state is Faulted;
stack_limit is unchanged. (10_state.md R27, R30, R32, R33; 42_handlers.md R162) -/
def Obligations.ExecLeavesOtherFields : Prop :=
  ∀ (i : Instr) (s t : State), exec i s = .next t →
    (setsPc (opcodeOf i) = false → t.pc = s.pc) ∧
    ((∀ r, i ≠ .prn r) → t.out = s.out) ∧ (t.out = s.out ∨ ∃ v, t.out = s.out ++ [v]) ∧
    (i ≠ .hlt → t.status.isFaulted = false → t.status = s.status) ∧
    t.stackLimit = s.stackLimit

/-- For every state and every number of steps, stack_limit is as at the start and every address below stack_limit or above
0xF6 reads as at the start: a program's bytes below stack_limit are never overwritten. The region is the spec's
decision D8. (41_stack.md R142, R148; 20_memory.md R61; 10_state.md R33) -/
def Obligations.RunStoresOnlyInStackRegion : Prop :=
  ∀ (k : Nat) (s : State),
    (runSteps k s).stackLimit = s.stackLimit ∧
    ∀ a, a < s.stackLimit.val ∨ 0xF6 < a → (runSteps k s).memRead? a = s.memRead? a

/-- From every state exactly one holds: after some number of steps the status is Halted; after some number of steps it is
Faulted; after every number of steps it is Running. (44_fetch_decode_execute.md R190, R203, R205;
70_reset_and_hazards.md R262) -/
def Obligations.RunEndsInExactlyOneWay : Prop :=
  ∀ s : State,
    (EndsNormally s ∧ ¬ EndsFaulted s ∧ ¬ NeverEnds s) ∨ (¬ EndsNormally s ∧ EndsFaulted s ∧ ¬ NeverEnds s) ∨
    (¬ EndsNormally s ∧ ¬ EndsFaulted s ∧ NeverEnds s)

/-- From every Running state with JMP of register r at pc and x[r] equal to pc, the run is Running after every number of
steps, and is always in that same state. (42_handlers.md R164; 44_fetch_decode_execute.md R205) -/
def Obligations.JumpToItselfNeverEnds : Prop :=
  ∀ (r : Fin 8) (s : State), s.status = .running → InstrAt s (.jmp (regByte r)) → (s.reg r).toNat = s.pc.toNat →
    NeverEnds s ∧ ∀ k, runSteps k s = s

/-- For every value and state, if push(v) does not fault, then pop() of the state it leaves does not fault, returns v, and
restores SP and every other register. (41_stack.md R140, R141, R148) -/
def Obligations.PopUndoesPush : Prop :=
  ∀ (v : Byte) (s t : State), push v s = .ok t →
    ∃ u, pop t = .ok (v, u) ∧ u.sp = s.sp ∧ ∀ q, u.reg q = s.reg q

/-- If a step from a Running state s at p runs CALL and leads to the Running state t, then from every Running state u with
t's SP, t's stack_limit and t's byte at SP, and RET at pc, the step leads to a Running state with pc = p + 2 and SP as
in s. (41_stack.md R146, R147, R148) -/
def Obligations.RetReturnsPastCall : Prop :=
  ∀ (b : Byte) (s t u : State), s.status = .running → InstrAt s (.call b) → step s = .next t → t.status = .running →
    u.status = .running → u.sp = t.sp → u.stackLimit = t.stackLimit →
    u.memRead? t.sp.toNat = t.memRead? t.sp.toNat → InstrAt u .ret →
    ∃ v, step u = .next v ∧ v.status = .running ∧ v.pc.toNat = s.pc.toNat + 2 ∧ v.sp = s.sp

/-- For every image of at most 256 bytes, loading it into a constructed instance is accepted; cell i reads image[i] for
every i below its length, every other cell keeps its reset value 0, and registers, pc, FL and status are unchanged.
(R254) -/
def Obligations.LoadWritesImage : Prop :=
  ∀ image : List Byte, image.length ≤ 256 →
    ∃ c, CpuInstance.construct.load image = (.loaded, c) ∧
      (∀ i, i < image.length → c.core.memRead? i = image[i]?) ∧
      (∀ i, image.length ≤ i → i < 256 → c.core.memRead? i = some 0) ∧
      c.core.regs = State.reset.regs ∧ c.core.pc = State.reset.pc ∧ c.core.flags = State.reset.flags ∧
      c.core.status = State.reset.status

/-- For every image of at most 256 bytes, the load sets stack_limit to its length N; and in every state whose stack_limit
is 0xF7 or more, every push and every pop faults. The rule is the spec's decision D8. (70_reset_and_hazards.md R256;
41_stack.md R142, R143) -/
def Obligations.LoadSetsStackLimit : Prop :=
  (∀ image : List Byte, image.length ≤ 256 →
    (CpuInstance.construct.load image).2.core.stackLimit.val = image.length) ∧
  (∀ s : State, 0xF7 ≤ s.stackLimit.val → (∀ v, push v s = .error s.pushAddress) ∧ pop s = .error s.sp)

/-- For every image of more than 256 bytes, loading it into a constructed instance reports ProgramTooLarge to the caller,
leaves the core as it was, status Running, and every later run is refused and changes nothing. (R255) -/
def Obligations.OversizeLoadFails : Prop :=
  ∀ image : List Byte, 256 < image.length →
    ∃ c, CpuInstance.construct.load image = (.failed .programTooLarge image.length, c) ∧
      c.core = State.reset ∧ c.core.status = .running ∧ ∀ polls, c.run polls = (.refused, c)

/-- After a load, accepted, failed or refused, a second load is refused and changes nothing, also when a run came between;
after a run that took a step (the instance may run, its status is Running, and the first poll answers no), a load is
refused and changes nothing, also after any further run, wherever the steps led. The refusal is the spec's decision
D22; that a failed load counts as the one load is the model's reading, log entry 11. (70_reset_and_hazards.md R253) -/
def Obligations.LateLoadRefused : Prop :=
  (∀ (c : CpuInstance) (first second : List Byte) (polls : List Bool),
    (c.load first).2.load second = (.refused, (c.load first).2) ∧
    ((c.load first).2.run polls).2.load second = (.refused, ((c.load first).2.run polls).2)) ∧
  (∀ (c d : CpuInstance) (polls later : List Bool) (image : List Byte),
    c.phase ≠ .loadFailed → c.core.status = .running → d = (c.run (false :: polls)).2 →
    d.load image = (.refused, d) ∧ (d.run later).2.load image = (.refused, (d.run later).2))

/-- Running a constructed instance with no load, with at least one poll and the first answering no, ends Faulted after one
step: UnimplementedOpcode, fault_pc 0, opcode 0x00, nothing else changed. The rule rests on the spec's decisions D2
and D30. (70_reset_and_hazards.md R257) -/
def Obligations.RunWithoutLoadFaultsAtZero : Prop :=
  ∀ polls : List Bool,
    CpuInstance.construct.run (false :: polls) =
      (.faulted ⟨.unimplementedOpcode, 0, some 0, none⟩,
       ⟨State.reset.faultedWith .unimplementedOpcode (some 0) none, .started⟩)

/-- For every instance and k, stopping the host's run at the poll after k steps and then running again with any polls
gives the same result and the same instance as one run with those polls after k unset ones. The rule is the spec's
decision D14; that the stop requests are a list of polls, whose end answers unfinished, is the model's choice, log
entry 9. (44_fetch_decode_execute.md R203, R204, R205) -/
def Obligations.StoppedRunResumes : Prop :=
  ∀ (c : CpuInstance) (k : Nat) (polls : List Bool),
    (c.run (List.replicate k false ++ [true])).2.run polls = c.run (List.replicate k false ++ polls)

/-- In an instance that may run and is Running, a poll that answers no takes exactly one step of the core and goes on with
the rest of the polls, and a poll that answers yes answers stopped and changes nothing. In every instance that may
run, a Halted or Faulted(record) answer means that the core's status is that, a stopped or unfinished answer that it
is Running, and the core is the state after at most as many steps as there are polls. Run is refused, changing
nothing, exactly after a failed load. That the requests are a list of polls, whose end in a Running state answers
unfinished, is the model's choice, log entry 9; that a run of a Halted or Faulted instance answers its status is its
reading, log entry 12. Decisions D14, D17, D22 of the spec. (44_fetch_decode_execute.md R203, R204, R205;
70_reset_and_hazards.md R255) -/
def Obligations.RunReportsHowItEnded : Prop :=
  ∀ (c : CpuInstance) (polls : List Bool),
    (c.phase ≠ .loadFailed → c.core.status = .running →
      (∃ t, step c.core = .next t ∧ c.run (false :: polls) = CpuInstance.run polls ⟨t, .started⟩) ∧
      c.run (true :: polls) = (.stopped, c) ∧ c.run [] = (.unfinished, c)) ∧
    (c.phase ≠ .loadFailed → c.core.status = .halted → c.run polls = (.halted, c)) ∧
    (∀ r, c.phase ≠ .loadFailed → c.core.status = .faulted r → c.run polls = (.faulted r, c)) ∧
    ((c.run polls).1 = .refused ↔ c.phase = .loadFailed) ∧ (c.phase = .loadFailed → (c.run polls).2 = c) ∧
    (∃ k, k ≤ polls.length ∧ (c.run polls).2.core = runSteps k c.core) ∧
    match (c.run polls).1 with
    | .halted => (c.run polls).2.core.status = .halted
    | .faulted r => (c.run polls).2.core.status = .faulted r
    | .stopped => (c.run polls).2.core.status = .running
    | .unfinished => (c.run polls).2.core.status = .running
    | .refused => (c.run polls).2 = c

/-- For every state the trace's pc is the state's, its k-th byte is the cell at pc + k, absent exactly when pc + k is 256
or more, and its registers are the eight registers. The mark for an absent byte is the spec's decision D18.
(60_exceptions.md R238) -/
def Obligations.TraceReadsState : Prop :=
  ∀ s : State, s.trace.pc = s.pc ∧ (∀ r : Fin 8, s.trace.regs[r] = s.reg r) ∧
    ∀ k : Fin 3, s.trace.bytes[k] = s.memRead? (s.pc.toNat + k.val) ∧
      (s.trace.bytes[k] = none ↔ 256 ≤ s.pc.toNat + k.val)

/-- For every value of the flags, the byte view's bit 2 is L, bit 1 is G, bit 0 is E, and bits 7 to 3 are 0. The layout is
the spec's decision D3. (10_state.md R28) -/
def Obligations.FlagByteLayout : Prop :=
  ∀ f : Flags, f.toByte.getLsbD 2 = f.l ∧ f.toByte.getLsbD 1 = f.g ∧ f.toByte.getLsbD 0 = f.e ∧
    ∀ k, 3 ≤ k → f.toByte.getLsbD k = false

/-- For every state and list, putting that list before out and stepping gives what stepping and then putting it before out
gives: no later behaviour depends on what was printed. (10_state.md R32; 42_handlers.md R162; 20_memory.md R52) -/
def Obligations.OutIsNeverRead : Prop :=
  ∀ (s : State) (earlier : List Byte),
    step { s with out := earlier ++ s.out } =
      match step s with
      | .next t => .next { t with out := earlier ++ t.out }
      | .fault r => .fault r
      | .refused r => .refused r
end

