-- ==== Sys2Proof/Laws/State.lean ====
section
/-! SUPPORT. One lemma per field per update of the state, so that no proof unfolds a record update. -/

namespace Sys2Proof.Machine

@[simp] theorem State.setReg_regs (s : State) (i : Fin 8) (v : Byte) : (s.setReg i v).regs = s.regs.set i v := rfl
@[simp] theorem State.setReg_pc (s : State) (i : Fin 8) (v : Byte) : (s.setReg i v).pc = s.pc := rfl
@[simp] theorem State.setReg_flags (s : State) (i : Fin 8) (v : Byte) : (s.setReg i v).flags = s.flags := rfl
@[simp] theorem State.setReg_mem (s : State) (i : Fin 8) (v : Byte) : (s.setReg i v).mem = s.mem := rfl
@[simp] theorem State.setReg_status (s : State) (i : Fin 8) (v : Byte) : (s.setReg i v).status = s.status := rfl
@[simp] theorem State.setReg_out (s : State) (i : Fin 8) (v : Byte) : (s.setReg i v).out = s.out := rfl
@[simp] theorem State.setReg_stackLimit (s : State) (i : Fin 8) (v : Byte) : (s.setReg i v).stackLimit = s.stackLimit := rfl

@[simp] theorem State.setSp_regs (s : State) (v : Byte) : (s.setSp v).regs = s.regs.set (7 : Fin 8) v := rfl
@[simp] theorem State.setSp_pc (s : State) (v : Byte) : (s.setSp v).pc = s.pc := rfl
@[simp] theorem State.setSp_flags (s : State) (v : Byte) : (s.setSp v).flags = s.flags := rfl
@[simp] theorem State.setSp_mem (s : State) (v : Byte) : (s.setSp v).mem = s.mem := rfl
@[simp] theorem State.setSp_status (s : State) (v : Byte) : (s.setSp v).status = s.status := rfl
@[simp] theorem State.setSp_out (s : State) (v : Byte) : (s.setSp v).out = s.out := rfl
@[simp] theorem State.setSp_stackLimit (s : State) (v : Byte) : (s.setSp v).stackLimit = s.stackLimit := rfl

@[simp] theorem State.memWrite_regs (s : State) (a v : Byte) : (s.memWrite a v).regs = s.regs := rfl
@[simp] theorem State.memWrite_pc (s : State) (a v : Byte) : (s.memWrite a v).pc = s.pc := rfl
@[simp] theorem State.memWrite_flags (s : State) (a v : Byte) : (s.memWrite a v).flags = s.flags := rfl
@[simp] theorem State.memWrite_mem (s : State) (a v : Byte) : (s.memWrite a v).mem = Memory.write s.mem a.toNat v := rfl
@[simp] theorem State.memWrite_status (s : State) (a v : Byte) : (s.memWrite a v).status = s.status := rfl
@[simp] theorem State.memWrite_out (s : State) (a v : Byte) : (s.memWrite a v).out = s.out := rfl
@[simp] theorem State.memWrite_stackLimit (s : State) (a v : Byte) : (s.memWrite a v).stackLimit = s.stackLimit := rfl

@[simp] theorem State.jumpTo_regs (s : State) (v : Byte) : (s.jumpTo v).regs = s.regs := rfl
@[simp] theorem State.jumpTo_pc (s : State) (v : Byte) : (s.jumpTo v).pc = v.setWidth 9 := rfl
@[simp] theorem State.jumpTo_flags (s : State) (v : Byte) : (s.jumpTo v).flags = s.flags := rfl
@[simp] theorem State.jumpTo_mem (s : State) (v : Byte) : (s.jumpTo v).mem = s.mem := rfl
@[simp] theorem State.jumpTo_status (s : State) (v : Byte) : (s.jumpTo v).status = s.status := rfl
@[simp] theorem State.jumpTo_out (s : State) (v : Byte) : (s.jumpTo v).out = s.out := rfl
@[simp] theorem State.jumpTo_stackLimit (s : State) (v : Byte) : (s.jumpTo v).stackLimit = s.stackLimit := rfl

@[simp] theorem State.skip_regs (s : State) (n : Nat) : (s.skip n).regs = s.regs := rfl
@[simp] theorem State.skip_pc (s : State) (n : Nat) : (s.skip n).pc = s.pc + BitVec.ofNat 9 n := rfl
@[simp] theorem State.skip_flags (s : State) (n : Nat) : (s.skip n).flags = s.flags := rfl
@[simp] theorem State.skip_mem (s : State) (n : Nat) : (s.skip n).mem = s.mem := rfl
@[simp] theorem State.skip_status (s : State) (n : Nat) : (s.skip n).status = s.status := rfl
@[simp] theorem State.skip_out (s : State) (n : Nat) : (s.skip n).out = s.out := rfl
@[simp] theorem State.skip_stackLimit (s : State) (n : Nat) : (s.skip n).stackLimit = s.stackLimit := rfl

@[simp] theorem State.faultedWith_regs (s : State) (k : FaultKind) (o : Option Byte) (n : Option Nat) : (s.faultedWith k o n).regs = s.regs := rfl
@[simp] theorem State.faultedWith_pc (s : State) (k : FaultKind) (o : Option Byte) (n : Option Nat) : (s.faultedWith k o n).pc = s.pc := rfl
@[simp] theorem State.faultedWith_flags (s : State) (k : FaultKind) (o : Option Byte) (n : Option Nat) : (s.faultedWith k o n).flags = s.flags := rfl
@[simp] theorem State.faultedWith_mem (s : State) (k : FaultKind) (o : Option Byte) (n : Option Nat) : (s.faultedWith k o n).mem = s.mem := rfl
@[simp] theorem State.faultedWith_status (s : State) (k : FaultKind) (o : Option Byte) (n : Option Nat) : (s.faultedWith k o n).status = .faulted ⟨k, s.pc, o, n⟩ := rfl
@[simp] theorem State.faultedWith_out (s : State) (k : FaultKind) (o : Option Byte) (n : Option Nat) : (s.faultedWith k o n).out = s.out := rfl
@[simp] theorem State.faultedWith_stackLimit (s : State) (k : FaultKind) (o : Option Byte) (n : Option Nat) : (s.faultedWith k o n).stackLimit = s.stackLimit := rfl

end Sys2Proof.Machine
end

