-- ==== Sys2Proof/Laws/Memory.lean ====
section
/-! SUPPORT. Memory: a read after a write, and that every operation keeps the canonical form. -/

namespace Sys2Proof.Machine

theorem Memory.wf_cons {a : Nat} {v : Byte} {rest : Memory} :
    Memory.wf ((a, v) :: rest) = true ↔ a < 256 ∧ v ≠ 0 ∧ (∀ c ∈ rest, a < c.1) ∧ Memory.wf rest = true := by
  simp only [Memory.wf, Bool.and_eq_true, decide_eq_true_eq, List.all_eq_true, and_assoc]

/-! ### Reading -/

theorem Memory.read_erase (m : Memory) (a x : Nat) :
    Memory.read (Memory.erase m a) x = if x = a then 0 else Memory.read m x := by
  induction m with
  | nil => simp [Memory.erase, Memory.read, Config.unwrittenByte]
  | cons c rest ih =>
    obtain ⟨b, w⟩ := c
    simp only [Memory.erase]
    by_cases hab : a = b
    · subst hab
      rw [if_pos rfl, ih]
      split_ifs with hx
      · rfl
      · simp [Memory.read, hx]
    · rw [if_neg hab]
      simp only [Memory.read, ih]
      by_cases hxb : x = b
      · rw [if_pos hxb, if_neg (by omega), if_pos hxb]
      · simp [hxb]

/-- Every pair of an erased list was in the list, and is of another address. -/
theorem Memory.mem_erase {m : Memory} {a : Nat} {c : Host.Cell} (h : c ∈ Memory.erase m a) : c ∈ m ∧ c.1 ≠ a := by
  induction m with
  | nil => simp [Memory.erase] at h
  | cons d rest ih =>
    obtain ⟨b, w⟩ := d
    simp only [Memory.erase] at h
    split_ifs at h with hab
    · exact ⟨List.mem_cons_of_mem _ (ih h).1, (ih h).2⟩
    · rcases List.mem_cons.1 h with rfl | h
      · exact ⟨List.mem_cons_self, fun hb => hab hb.symm⟩
      · exact ⟨List.mem_cons_of_mem _ (ih h).1, (ih h).2⟩

theorem Memory.read_insert {m : Memory} {a : Nat} (v : Byte) (h : ∀ c ∈ m, c.1 ≠ a) (x : Nat) :
    Memory.read (Memory.insert m a v) x = if x = a then v else Memory.read m x := by
  induction m with
  | nil => rfl
  | cons d rest ih =>
    obtain ⟨b, w⟩ := d
    have hb : b ≠ a := h (b, w) List.mem_cons_self
    have ih := ih fun c hc => h c (List.mem_cons_of_mem _ hc)
    simp only [Memory.insert]
    split_ifs with hab hx hx
    · simp [Memory.read, hx]
    · simp [Memory.read, hx]
    · subst hx
      simp [Memory.read, ih, hb.symm]
    · simp [Memory.read, ih, hx]

/-- A read after a write: the value written at its address, what stood there at every other (20_memory.md R55, R58). -/
theorem Memory.read_write (m : Memory) (a x : Nat) (v : Byte) :
    Memory.read (Memory.write m a v) x = if x = a then v else Memory.read m x := by
  unfold Memory.write
  split_ifs with hv hx hx
  · rw [Memory.read_erase, if_pos hx]; exact hv.symm
  · rw [Memory.read_erase, if_neg hx]
  · rw [Memory.read_insert v fun c hc => (Memory.mem_erase hc).2, if_pos hx]
  · rw [Memory.read_insert v fun c hc => (Memory.mem_erase hc).2, if_neg hx, Memory.read_erase, if_neg hx]

/-- What a run of bytes stored from `a` leaves at an address of memory. -/
theorem Memory.read_writeBytes (m : Memory) (a : Nat) (image : List Byte) (x : Nat) (hx : x < 256) :
    Memory.read (Memory.writeBytes m a image) x =
      if a ≤ x ∧ x < a + image.length then image.getD (x - a) 0 else Memory.read m x := by
  induction image generalizing m a with
  | nil => rw [if_neg (by simp)]; rfl
  | cons v rest ih =>
    simp only [Memory.writeBytes, ih, List.length_cons, Config.memSize]
    rcases lt_trichotomy x a with hlt | rfl | hgt
    · rw [if_neg (by omega), if_neg (show ¬ (a ≤ x ∧ x < a + (rest.length + 1)) by omega)]
      split_ifs
      · rw [Memory.read_write, if_neg (by omega)]
      · rfl
    · rw [if_neg (by omega), if_pos hx, if_pos (by omega), Memory.read_write]
      simp
    · by_cases hin : x < a + 1 + rest.length
      · rw [if_pos (by omega), if_pos (by omega), show x - a = x - (a + 1) + 1 by omega, List.getD_cons_succ]
      · rw [if_neg (by omega), if_neg (show ¬ (a ≤ x ∧ x < a + (rest.length + 1)) by omega)]
        split_ifs
        · rw [Memory.read_write, if_neg (by omega)]
        · rfl

/-! ### The canonical form -/

theorem Memory.wf_erase {m : Memory} (a : Nat) (h : Memory.wf m = true) : Memory.wf (Memory.erase m a) = true := by
  induction m with
  | nil => rfl
  | cons d rest ih =>
    obtain ⟨b, w⟩ := d
    obtain ⟨hb, hw, hlt, hrest⟩ := Memory.wf_cons.1 h
    simp only [Memory.erase]
    split_ifs
    · exact ih hrest
    · exact Memory.wf_cons.2 ⟨hb, hw, fun c hc => hlt c (Memory.mem_erase hc).1, ih hrest⟩

theorem Memory.mem_insert {m : Memory} {a : Nat} {v : Byte} {c : Host.Cell} (h : c ∈ Memory.insert m a v) :
    c = (a, v) ∨ c ∈ m := by
  induction m with
  | nil => exact .inl (List.mem_singleton.1 h)
  | cons d rest ih =>
    obtain ⟨b, w⟩ := d
    simp only [Memory.insert] at h
    split_ifs at h
    · exact List.mem_cons.1 h
    · rcases List.mem_cons.1 h with rfl | h
      · exact .inr List.mem_cons_self
      · exact (ih h).imp_right (List.mem_cons_of_mem _)

theorem Memory.wf_insert {m : Memory} {a : Nat} {v : Byte} (h : Memory.wf m = true) (ha : a < 256) (hv : v ≠ 0)
    (hne : ∀ c ∈ m, c.1 ≠ a) : Memory.wf (Memory.insert m a v) = true := by
  induction m with
  | nil => exact Memory.wf_cons.2 ⟨ha, hv, by simp, rfl⟩
  | cons d rest ih =>
    obtain ⟨b, w⟩ := d
    obtain ⟨hb, hw, hlt, hrest⟩ := Memory.wf_cons.1 h
    have hba : b ≠ a := hne (b, w) List.mem_cons_self
    simp only [Memory.insert]
    split_ifs with hab
    · refine Memory.wf_cons.2 ⟨ha, hv, fun c hc => ?_, h⟩
      rcases List.mem_cons.1 hc with rfl | hc
      · exact hab
      · exact hab.trans (hlt c hc)
    · refine Memory.wf_cons.2 ⟨hb, hw, fun c hc => ?_, ih hrest fun c hc => hne c (List.mem_cons_of_mem _ hc)⟩
      rcases Memory.mem_insert hc with rfl | hc
      · simp only; omega
      · exact hlt c hc

/-- A write inside memory keeps the canonical form. -/
theorem Memory.wf_write {m : Memory} {a : Nat} (v : Byte) (h : Memory.wf m = true) (ha : a < 256) :
    Memory.wf (Memory.write m a v) = true := by
  unfold Memory.write
  split_ifs with hv
  · exact Memory.wf_erase a h
  · exact Memory.wf_insert (Memory.wf_erase a h) ha hv fun c hc => (Memory.mem_erase hc).2

/-- Storing a run of bytes keeps the canonical form. -/
theorem Memory.wf_writeBytes {m : Memory} (h : Memory.wf m = true) (a : Nat) (image : List Byte) :
    Memory.wf (Memory.writeBytes m a image) = true := by
  induction image generalizing m a with
  | nil => exact h
  | cons v rest ih =>
    simp only [Memory.writeBytes]
    split_ifs with ha
    · exact ih (Memory.wf_write v h ha) _
    · exact ih h _

/-- The memory after reset is in canonical form. -/
theorem Memory.wf_reset : Memory.wf State.reset.mem = true := rfl

/-- Two canonical memories that read alike at every address of memory are the same list. -/
theorem Memory.eq_of_read_eq {m n : Memory} (hm : Memory.wf m = true) (hn : Memory.wf n = true)
    (h : ∀ a, a < 256 → Memory.read m a = Memory.read n a) : m = n := by
  have low : ∀ {k : Memory} {a : Nat}, (∀ c ∈ k, a < c.1) → Memory.read k a = 0 := by
    intro k a hk
    induction k with
    | nil => rfl
    | cons c rest ih =>
      obtain ⟨b, w⟩ := c
      have hb : a < b := hk (b, w) List.mem_cons_self
      simp only [Memory.read, if_neg (show ¬ a = b by omega)]
      exact ih fun c hc => hk c (List.mem_cons_of_mem _ hc)
  induction m generalizing n with
  | nil =>
    cases n with
    | nil => rfl
    | cons d rest =>
      obtain ⟨b, w⟩ := d
      obtain ⟨hb, hw, -, -⟩ := Memory.wf_cons.1 hn
      exact absurd (by simpa [Memory.read] using (h b hb).symm) hw
  | cons c rest ih =>
    obtain ⟨a, v⟩ := c
    obtain ⟨ha, hv, hlt, hrest⟩ := Memory.wf_cons.1 hm
    cases n with
    | nil => exact absurd (by simpa [Memory.read] using h a ha) hv
    | cons d rest' =>
      obtain ⟨b, w⟩ := d
      obtain ⟨hb, hw, hlt', hrest'⟩ := Memory.wf_cons.1 hn
      have hab : a = b := by
        rcases lt_trichotomy a b with hl | he | hg
        · have := h a ha
          simp only [Memory.read, if_pos, if_neg (show ¬ a = b by omega)] at this
          exact absurd (this.trans (low fun c hc => hl.trans (hlt' c hc))) hv
        · exact he
        · have := h b hb
          simp only [Memory.read, if_pos, if_neg (show ¬ b = a by omega)] at this
          exact absurd (this.symm.trans (low fun c hc => hg.trans (hlt c hc))) hw
      subst hab
      have hvw : v = w := by simpa [Memory.read] using h a ha
      subst hvw
      refine congrArg _ (ih hrest hrest' fun x hx => ?_)
      by_cases hxa : x = a
      · subst hxa; rw [low hlt, low hlt']
      · simpa [Memory.read, hxa] using h x hx

end Sys2Proof.Machine
end

