-- ==== Sys2Proof/Laws/Ops.lean ====
section
/-! SUPPORT. What the shared operations over registers, memory and the stack can do. -/

namespace Sys2Proof.Machine

/-! ### Arithmetic -/

theorem toNat_mask8 (v : Int) : ((mask8 v).toNat : Int) = v % 256 := by
  simp [mask8, BitVec.toNat_ofInt, Int.toNat_of_nonneg (Int.emod_nonneg v (by decide : (256 : Int) ≠ 0))]

/-- `mask8` of a natural number. -/
theorem toNat_mask8_nat (n : Nat) : (mask8 (n : Int)).toNat = n % 256 := by
  have := toNat_mask8 (n : Int)
  omega

/-! ### Registers -/

/-- A register read after a register write (10_state.md R21). -/
theorem State.reg_setReg (s : State) (r q : Fin 8) (v : Byte) : (s.setReg r v).reg q = if q = r then v else s.reg q := by
  simp only [State.reg, State.setReg, Fin.getElem_fin, Vector.getElem_set, Fin.ext_iff, eq_comm]

@[simp] theorem State.reg_setReg_self (s : State) (r : Fin 8) (v : Byte) : (s.setReg r v).reg r = v := by
  rw [State.reg_setReg, if_pos rfl]

/-- A write of one register leaves the others (10_state.md R20). -/
theorem State.reg_setReg_of_ne (s : State) {r q : Fin 8} (v : Byte) (h : q ≠ r) : (s.setReg r v).reg q = s.reg q := by
  rw [State.reg_setReg, if_neg h]

theorem State.reg_setSp (s : State) (q : Fin 8) (v : Byte) : (s.setSp v).reg q = if q = 7 then v else s.reg q :=
  State.reg_setReg s 7 q v

/-- A write through the name SP is seen through the name R7 and the other way round (10_state.md R22). -/
@[simp] theorem State.sp_setSp (s : State) (v : Byte) : (s.setSp v).sp = v := State.reg_setReg_self s 7 v

@[simp] theorem State.reg_memWrite (s : State) (a v : Byte) (q : Fin 8) : (s.memWrite a v).reg q = s.reg q := rfl
@[simp] theorem State.sp_memWrite (s : State) (a v : Byte) : (s.memWrite a v).sp = s.sp := rfl
@[simp] theorem State.reg_jumpTo (s : State) (v : Byte) (q : Fin 8) : (s.jumpTo v).reg q = s.reg q := rfl
@[simp] theorem State.sp_jumpTo (s : State) (v : Byte) : (s.jumpTo v).sp = s.sp := rfl
@[simp] theorem State.reg_skip (s : State) (n : Nat) (q : Fin 8) : (s.skip n).reg q = s.reg q := rfl
@[simp] theorem State.reg_faultedWith (s : State) (k : FaultKind) (o : Option Byte) (n : Option Nat) (q : Fin 8) :
    (s.faultedWith k o n).reg q = s.reg q := rfl

/-! ### Memory -/

/-- What `memRead?` reads depends on memory alone. -/
theorem State.memRead?_congr {s t : State} (h : t.mem = s.mem) (a : Nat) : t.memRead? a = s.memRead? a := by
  simp only [State.memRead?, h]

theorem State.memRead?_of_lt (s : State) {a : Nat} (h : a < 256) : s.memRead? a = some (Memory.read s.mem a) := if_pos h

theorem State.memRead?_eq_none {s : State} {a : Nat} : s.memRead? a = none ↔ 256 ≤ a := by
  simp [State.memRead?, Config.memSize]

/-- A read after a store (20_memory.md R55, R58). -/
theorem State.memRead?_memWrite (s : State) (a v : Byte) (x : Nat) :
    (s.memWrite a v).memRead? x = if x = a.toNat then some v else s.memRead? x := by
  simp only [State.memRead?, State.memWrite, Memory.read_write, Config.memSize]
  have := a.isLt
  split_ifs <;> first | rfl | omega

@[simp] theorem State.memRead?_setReg (s : State) (r : Fin 8) (v : Byte) (x : Nat) :
    (s.setReg r v).memRead? x = s.memRead? x := rfl
@[simp] theorem State.memRead?_setSp (s : State) (v : Byte) (x : Nat) : (s.setSp v).memRead? x = s.memRead? x := rfl
@[simp] theorem State.memRead?_jumpTo (s : State) (v : Byte) (x : Nat) : (s.jumpTo v).memRead? x = s.memRead? x := rfl
@[simp] theorem State.memRead?_skip (s : State) (n x : Nat) : (s.skip n).memRead? x = s.memRead? x := rfl
@[simp] theorem State.memRead?_faultedWith (s : State) (k : FaultKind) (o : Option Byte) (n : Option Nat) (x : Nat) :
    (s.faultedWith k o n).memRead? x = s.memRead? x := rfl

/-! ### Faults -/

/-- Raising a fault always answers the state with its status alone changed (60_exceptions.md R226). -/
theorem raise_eq (t : Trap) (s : State) : raise t s = .next (s.faultedWith t.kind t.opcode t.info) := rfl

/-! ### The stack -/

theorem State.toNat_pushAddress (s : State) : s.pushAddress.toNat = (s.sp.toNat + 255) % 256 := by
  have h := toNat_mask8 ((s.sp.toNat : Int) - 1)
  have := s.sp.isLt
  simp only [State.pushAddress]
  omega

theorem State.inStackRegion_iff {s : State} {a : Byte} :
    s.inStackRegion a = true ↔ s.stackLimit.val ≤ a.toNat ∧ a.toNat ≤ 0xF6 := by
  simp [State.inStackRegion, Config.stackTop]

/-- A push that answers a state was inside the region and stored at the push address (41_stack.md R140). -/
theorem push_ok {v : Byte} {s t : State} (h : push v s = .ok t) :
    s.inStackRegion s.pushAddress = true ∧ t = (s.setSp s.pushAddress).memWrite s.pushAddress v := by
  unfold push at h
  split_ifs at h with hr
  exact ⟨hr, (Except.ok.inj h).symm⟩

/-- A push that answers an address faults on the push address (41_stack.md R142). -/
theorem push_error {v : Byte} {s : State} {a : Byte} (h : push v s = .error a) :
    s.inStackRegion s.pushAddress = false ∧ a = s.pushAddress := by
  unfold push at h
  split_ifs at h with hr
  exact ⟨by simpa using hr, (Except.error.inj h).symm⟩

/-- A pop that answers a state was inside the region and read at SP (41_stack.md R141). -/
theorem pop_ok {v : Byte} {s t : State} (h : pop s = .ok (v, t)) :
    s.inStackRegion s.sp = true ∧ v = Memory.read s.mem s.sp.toNat ∧ t = s.setSp (mask8 ((s.sp.toNat : Int) + 1)) := by
  unfold pop at h
  split_ifs at h with hr
  obtain ⟨rfl, rfl⟩ := Prod.mk.inj (Except.ok.inj h)
  exact ⟨hr, rfl, rfl⟩

/-- A pop that answers an address faults on SP (41_stack.md R143). -/
theorem pop_error {s : State} {a : Byte} (h : pop s = .error a) : s.inStackRegion s.sp = false ∧ a = s.sp := by
  unfold pop at h
  split_ifs at h with hr
  exact ⟨by simpa using hr, (Except.error.inj h).symm⟩

/-! ### The Advance phase -/

/-- What Advance makes of a next state (44_fetch_decode_execute.md R199). -/
theorem advance_next (b : Byte) (t : State) :
    advance b (.next t) =
      if setsPc b || t.status.isFaulted then .next t else .next (t.skip (operandCount b + 1)) := rfl

end Sys2Proof.Machine
end

