-- ==== Sys2Proof/Laws/Operands.lean ====
section
/-! SUPPORT. Register operand bytes and the register check. -/

namespace Sys2Proof.Machine

theorem toNat_regByte (r : Fin 8) : (regByte r).toNat = r.val := by
  simp only [regByte, BitVec.toNat_ofNat]
  omega

@[simp] theorem regIndex_regByte (r : Fin 8) : regIndex (regByte r) = some r := by
  have h := toNat_regByte r
  simp [regIndex, h, r.isLt]

theorem regByte_injective {r q : Fin 8} (h : regByte r = regByte q) : r = q := by
  simpa using congrArg regIndex h

/-- A reg operand byte is the byte of the register it selects (10_state.md R25). -/
theorem regIndex_eq_some {b : Byte} {r : Fin 8} : regIndex b = some r ↔ regByte r = b := by
  constructor
  · intro h
    unfold regIndex at h
    split_ifs at h
    obtain rfl := Option.some.inj h
    exact BitVec.eq_of_toNat_eq (toNat_regByte _)
  · rintro rfl
    exact regIndex_regByte r

/-- A byte of 8 or more selects no register. -/
theorem regIndex_eq_none {b : Byte} : regIndex b = none ↔ 8 ≤ b.toNat := by
  unfold regIndex
  split_ifs with h
  · simp only [false_iff]; omega
  · simp only [true_iff]; omega

@[simp] theorem withReg_regByte (opc : Byte) (r : Fin 8) (s : State) (f : Fin 8 → StepOutcome) :
    withReg opc (regByte r) s f = f r := by
  simp [withReg]

@[simp] theorem withRegs_regByte (opc : Byte) (d r : Fin 8) (s : State) (f : Fin 8 → Fin 8 → StepOutcome) :
    withRegs opc (regByte d) (regByte r) s f = f d r := by
  simp [withRegs]

/-- The register check fails on a byte of 8 or more (44_fetch_decode_execute.md R197). -/
theorem withReg_of_le {opc b : Byte} (h : 8 ≤ b.toNat) (s : State) (f : Fin 8 → StepOutcome) :
    withReg opc b s f = .next (s.faultedWith .malformedInstruction (some opc) (some b.toNat)) := by
  rw [withReg, regIndex_eq_none.2 h]
  rfl

/-- All a checked operand can do: Execute runs on the register of the byte, or the byte is 8 or more and the step faults. -/
theorem withReg_cases (opc b : Byte) (s : State) (f : Fin 8 → StepOutcome) :
    (∃ r, regByte r = b ∧ withReg opc b s f = f r) ∨
    (8 ≤ b.toNat ∧ withReg opc b s f = .next (s.faultedWith .malformedInstruction (some opc) (some b.toNat))) := by
  cases h : regIndex b with
  | some r => exact .inl ⟨r, regIndex_eq_some.1 h, by rw [withReg, h]⟩
  | none => exact .inr ⟨regIndex_eq_none.1 h, withReg_of_le (regIndex_eq_none.1 h) s f⟩

end Sys2Proof.Machine
end

