-- ==== Sys2Proof/Laws/Exec.lean ====
section
/-! SUPPORT. All that each shape of instruction can do: its effect on the registers its operand bytes select, or a fault, which is
the state with the status alone changed. -/

namespace Sys2Proof.Machine

/-- The information a fault of each kind records, raised in state `s` (10_state.md R31, 60_exceptions.md R220). -/
def InfoFits (s : State) : FaultKind → Option Nat → Prop
  | .divisionByZero, info => info = none
  | .unsupportedAluOperation, info => info = none
  | .unimplementedOpcode, info => info = none
  | .malformedInstruction, info => info = none ∨ ∃ b : Byte, info = some b.toNat ∧ 8 ≤ b.toNat
  | .stackOverflow, info => ∃ a : Byte, info = some a.toNat ∧ s.inStackRegion a = false
  | .stackUnderflow, info => ∃ a : Byte, info = some a.toNat ∧ s.inStackRegion a = false
  | .invalidMemoryAddress, info => ∃ a, info = some a ∧ 256 ≤ a
  | .programTooLarge, _ => False

/-- The outcome is a fault of the instruction with opcode byte `opc`, taken in state `s`: the status alone changed. -/
def FaultTaken (opc : Byte) (s : State) (o : StepOutcome) : Prop :=
  ∃ k info, InfoFits s k info ∧ o = .next (s.faultedWith k (some opc) info)

theorem withReg_taken {opc b : Byte} {s : State} {f : Fin 8 → StepOutcome} {P : StepOutcome → Prop}
    (hf : ∀ r, regByte r = b → P (f r)) (ht : ∀ o, FaultTaken opc s o → P o) : P (withReg opc b s f) := by
  rcases withReg_cases opc b s f with ⟨r, hr, h⟩ | ⟨hb, h⟩
  · rw [h]; exact hf r hr
  · exact ht _ ⟨.malformedInstruction, _, Or.inr ⟨b, rfl, hb⟩, h⟩

theorem binaryOp_cases (opc : Byte) (f : Byte → Byte → Byte) (d r : Byte) (s : State) :
    (∃ i j, regByte i = d ∧ regByte j = r ∧ binaryOp opc f d r s = .next (s.setReg i (f (s.reg i) (s.reg j)))) ∨
    FaultTaken opc s (binaryOp opc f d r s) :=
  withReg_taken (P := fun o => (∃ i j, regByte i = d ∧ regByte j = r ∧ o = .next (s.setReg i (f (s.reg i) (s.reg j)))) ∨
      FaultTaken opc s o)
    (fun i hi => withReg_taken (P := fun o => (∃ i j, regByte i = d ∧ regByte j = r ∧
        o = .next (s.setReg i (f (s.reg i) (s.reg j)))) ∨ FaultTaken opc s o)
      (fun j hj => .inl ⟨i, j, hi, hj, rfl⟩) fun _ => .inr) fun _ => .inr

theorem dividingOp_cases (opc : Byte) (f : Byte → Byte → Byte) (d r : Byte) (s : State) :
    (∃ i j, regByte i = d ∧ regByte j = r ∧ s.reg j ≠ 0 ∧
      dividingOp opc f d r s = .next (s.setReg i (f (s.reg i) (s.reg j)))) ∨
    FaultTaken opc s (dividingOp opc f d r s) := by
  refine withReg_taken (P := fun o => (∃ i j, regByte i = d ∧ regByte j = r ∧ s.reg j ≠ 0 ∧
      o = .next (s.setReg i (f (s.reg i) (s.reg j)))) ∨ FaultTaken opc s o)
    (fun i hi => withReg_taken (P := fun o => (∃ i j, regByte i = d ∧ regByte j = r ∧ s.reg j ≠ 0 ∧
        o = .next (s.setReg i (f (s.reg i) (s.reg j)))) ∨ FaultTaken opc s o)
      (fun j hj => ?_) fun _ => .inr) fun _ => .inr
  beta_reduce
  split_ifs with h0
  · exact .inr ⟨.divisionByZero, none, rfl, rfl⟩
  · exact .inl ⟨i, j, hi, hj, h0, rfl⟩

theorem unaryOp_cases (opc : Byte) (f : Byte → Byte) (d : Byte) (s : State) :
    (∃ i, regByte i = d ∧ unaryOp opc f d s = .next (s.setReg i (f (s.reg i)))) ∨ FaultTaken opc s (unaryOp opc f d s) :=
  withReg_taken (P := fun o => (∃ i, regByte i = d ∧ o = .next (s.setReg i (f (s.reg i)))) ∨ FaultTaken opc s o)
    (fun i hi => .inl ⟨i, hi, rfl⟩) fun _ => .inr

theorem execCmp_cases (d r : Byte) (s : State) :
    (∃ i j, regByte i = d ∧ regByte j = r ∧ execCmp d r s = .next { s with flags := compareFlags (s.reg i) (s.reg j) }) ∨
    FaultTaken Opcode.cmp s (execCmp d r s) :=
  withReg_taken (P := fun o => (∃ i j, regByte i = d ∧ regByte j = r ∧
      o = .next { s with flags := compareFlags (s.reg i) (s.reg j) }) ∨ FaultTaken Opcode.cmp s o)
    (fun i hi => withReg_taken (P := fun o => (∃ i j, regByte i = d ∧ regByte j = r ∧
        o = .next { s with flags := compareFlags (s.reg i) (s.reg j) }) ∨ FaultTaken Opcode.cmp s o)
      (fun j hj => .inl ⟨i, j, hi, hj, rfl⟩) fun _ => .inr) fun _ => .inr

theorem execPush_cases (r : Byte) (s : State) :
    (∃ i, regByte i = r ∧ s.inStackRegion s.pushAddress = true ∧
      execPush r s = .next ((s.setSp s.pushAddress).memWrite s.pushAddress (s.reg i))) ∨
    FaultTaken Opcode.push s (execPush r s) := by
  refine withReg_taken (P := fun o => (∃ i, regByte i = r ∧ s.inStackRegion s.pushAddress = true ∧
    o = .next ((s.setSp s.pushAddress).memWrite s.pushAddress (s.reg i))) ∨ FaultTaken Opcode.push s o)
    (fun i hi => ?_) fun _ => .inr
  cases h : push (s.reg i) s with
  | ok t =>
    obtain ⟨hr, rfl⟩ := push_ok h
    exact .inl ⟨i, hi, hr, rfl⟩
  | error a =>
    obtain ⟨hr, rfl⟩ := push_error h
    exact .inr ⟨.stackOverflow, _, ⟨_, rfl, hr⟩, rfl⟩

theorem execPop_cases (r : Byte) (s : State) :
    (∃ i, regByte i = r ∧ s.inStackRegion s.sp = true ∧ execPop r s =
      .next ((s.setSp (mask8 ((s.sp.toNat : Int) + 1))).setReg i (Memory.read s.mem s.sp.toNat))) ∨
    FaultTaken Opcode.pop s (execPop r s) := by
  refine withReg_taken (P := fun o => (∃ i, regByte i = r ∧ s.inStackRegion s.sp = true ∧ o =
    .next ((s.setSp (mask8 ((s.sp.toNat : Int) + 1))).setReg i (Memory.read s.mem s.sp.toNat))) ∨ FaultTaken Opcode.pop s o)
    (fun i hi => ?_) fun _ => .inr
  cases h : pop s with
  | ok p =>
    obtain ⟨hr, hv, ht⟩ := pop_ok h
    exact .inl ⟨i, hi, hr, by rw [← hv, ← ht]⟩
  | error a =>
    obtain ⟨hr, rfl⟩ := pop_error h
    exact .inr ⟨.stackUnderflow, _, ⟨_, rfl, hr⟩, rfl⟩

theorem execCall_cases (r : Byte) (s : State) :
    (∃ i, regByte i = r ∧ s.returnAddress ≤ 255 ∧ s.inStackRegion s.pushAddress = true ∧ execCall r s =
      .next (((s.setSp s.pushAddress).memWrite s.pushAddress (BitVec.ofNat 8 s.returnAddress)).jumpTo
        ((s.setSp s.pushAddress).reg i))) ∨
    FaultTaken Opcode.call s (execCall r s) := by
  refine withReg_taken (P := fun o => (∃ i, regByte i = r ∧ s.returnAddress ≤ 255 ∧ s.inStackRegion s.pushAddress = true ∧ o =
      .next (((s.setSp s.pushAddress).memWrite s.pushAddress (BitVec.ofNat 8 s.returnAddress)).jumpTo
        ((s.setSp s.pushAddress).reg i))) ∨ FaultTaken Opcode.call s o) (fun i hi => ?_) fun _ => .inr
  split_ifs with hret
  · exact .inr ⟨.invalidMemoryAddress, _, ⟨_, rfl, hret⟩, rfl⟩
  · cases h : push (BitVec.ofNat 8 s.returnAddress) s with
    | ok t =>
      obtain ⟨hr, rfl⟩ := push_ok h
      exact .inl ⟨i, hi, by omega, hr, rfl⟩
    | error a =>
      obtain ⟨hr, rfl⟩ := push_error h
      exact .inr ⟨.stackOverflow, _, ⟨_, rfl, hr⟩, rfl⟩

theorem execRet_cases (s : State) :
    (s.inStackRegion s.sp = true ∧ execRet s =
      .next ((s.setSp (mask8 ((s.sp.toNat : Int) + 1))).jumpTo (Memory.read s.mem s.sp.toNat))) ∨
    FaultTaken Opcode.ret s (execRet s) := by
  unfold execRet
  cases h : pop s with
  | ok p =>
    obtain ⟨hr, hv, ht⟩ := pop_ok h
    exact .inl ⟨hr, by rw [← hv, ← ht]⟩
  | error a =>
    obtain ⟨hr, rfl⟩ := pop_error h
    exact .inr ⟨.stackUnderflow, _, ⟨_, rfl, hr⟩, rfl⟩

theorem execLdi_cases (r imm : Byte) (s : State) :
    (∃ i, regByte i = r ∧ execLdi r imm s = .next (s.setReg i imm)) ∨ FaultTaken Opcode.ldi s (execLdi r imm s) :=
  withReg_taken (P := fun o => (∃ i, regByte i = r ∧ o = .next (s.setReg i imm)) ∨ FaultTaken Opcode.ldi s o)
    (fun i hi => .inl ⟨i, hi, rfl⟩) fun _ => .inr

theorem execPrn_cases (r : Byte) (s : State) :
    (∃ i, regByte i = r ∧ execPrn r s = .next { s with out := s.out ++ [s.reg i] }) ∨ FaultTaken Opcode.prn s (execPrn r s) :=
  withReg_taken (P := fun o => (∃ i, regByte i = r ∧ o = .next { s with out := s.out ++ [s.reg i] }) ∨
    FaultTaken Opcode.prn s o) (fun i hi => .inl ⟨i, hi, rfl⟩) fun _ => .inr

theorem execJmp_cases (r : Byte) (s : State) :
    (∃ i, regByte i = r ∧ execJmp r s = .next (s.jumpTo (s.reg i))) ∨ FaultTaken Opcode.jmp s (execJmp r s) :=
  withReg_taken (P := fun o => (∃ i, regByte i = r ∧ o = .next (s.jumpTo (s.reg i))) ∨ FaultTaken Opcode.jmp s o)
    (fun i hi => .inl ⟨i, hi, rfl⟩) fun _ => .inr

theorem conditionalJump_cases (opc : Byte) (cond : Flags → Bool) (r : Byte) (s : State) :
    (∃ i, regByte i = r ∧ conditionalJump opc cond r s = .next (if cond s.flags then s.jumpTo (s.reg i) else s.skip 2)) ∨
    FaultTaken opc s (conditionalJump opc cond r s) :=
  withReg_taken (P := fun o => (∃ i, regByte i = r ∧ o = .next (if cond s.flags then s.jumpTo (s.reg i) else s.skip 2)) ∨
    FaultTaken opc s o) (fun i hi => .inl ⟨i, hi, rfl⟩) fun _ => .inr

/-! ### All that any instruction can do -/

/-- The instructions that position the program counter themselves (10_state.md R27). -/
def IsTransfer (i : Instr) : Prop :=
  i = .ret ∨ ∃ r, i = .call r ∨ i = .jmp r ∨ i = .jeq r ∨ i = .jne r ∨ i = .jgt r ∨ i = .jlt r ∨ i = .jle r ∨ i = .jge r

/-- The instructions whose one effect is a register write. -/
def IsRegisterWrite (i : Instr) : Prop :=
  (∃ d r, i = .add d r ∨ i = .sub d r ∨ i = .mul d r ∨ i = .div d r ∨ i = .mod d r ∨ i = .and d r ∨ i = .or d r ∨ i = .xor d r ∨
    i = .shl d r ∨ i = .shr d r ∨ i = .ldi d r) ∨ ∃ d, i = .inc d ∨ i = .dec d ∨ i = .not d

/-- What an instruction can make of a state, by kind; the values are the ones its meaning computes. -/
inductive Effect : Instr → State → State → Prop where
  | fault {i s} (k info) (fits : InfoFits s k info) : Effect i s (s.faultedWith k (some (opcodeOf i)) info)
  | writeReg {i s} (r v) (kind : IsRegisterWrite i) (dest : regByte r ∈ i.registersWritten) : Effect i s (s.setReg r v)
  | compare {d r s} (a b) : Effect (.cmp d r) s { s with flags := compareFlags a b }
  | push {r s} (v) (region : s.inStackRegion s.pushAddress = true) :
      Effect (.push r) s ((s.setSp s.pushAddress).memWrite s.pushAddress v)
  | pop {s} (i v) (region : s.inStackRegion s.sp = true) :
      Effect (.pop (regByte i)) s ((s.setSp (mask8 ((s.sp.toNat : Int) + 1))).setReg i v)
  | call {r s} (v target) (room : s.returnAddress ≤ 255) (region : s.inStackRegion s.pushAddress = true) :
      Effect (.call r) s (((s.setSp s.pushAddress).memWrite s.pushAddress v).jumpTo target)
  | ret {s} (target) (region : s.inStackRegion s.sp = true) :
      Effect .ret s ((s.setSp (mask8 ((s.sp.toNat : Int) + 1))).jumpTo target)
  | print {r s} (v) : Effect (.prn r) s { s with out := s.out ++ [v] }
  | halt {s} : Effect .hlt s { s with status := .halted }
  | jump {i s} (target) (transfer : IsTransfer i) : Effect i s (s.jumpTo target)
  | fallThrough {i s} (transfer : IsTransfer i) (length : operandBytes i ≠ []) : Effect i s (s.skip 2)

theorem Effect.of_fault {i : Instr} {s : State} {o : StepOutcome} (h : FaultTaken (opcodeOf i) s o) : ∃ t, o = .next t ∧ Effect i s t := by
  obtain ⟨k, info, hfit, h⟩ := h
  exact ⟨_, h, .fault k info hfit⟩

theorem Effect.of_writeReg {i : Instr} {s : State} {o : StepOutcome} (kind : IsRegisterWrite i)
    (h : (∃ r v, regByte r ∈ i.registersWritten ∧ o = .next (s.setReg r v)) ∨ FaultTaken (opcodeOf i) s o) :
    ∃ t, o = .next t ∧ Effect i s t := by
  rcases h with ⟨r, v, hr, h⟩ | h
  · exact ⟨_, h, .writeReg r v kind hr⟩
  · exact Effect.of_fault h

theorem Effect.of_binaryOp {i : Instr} {d r : Byte} (f : Byte → Byte → Byte) (s : State) (kind : IsRegisterWrite i)
    (dest : d ∈ i.registersWritten) : ∃ t, binaryOp (opcodeOf i) f d r s = .next t ∧ Effect i s t :=
  Effect.of_writeReg kind <| (binaryOp_cases (opcodeOf i) f d r s).imp_left fun ⟨_, _, hi, _, h⟩ => ⟨_, _, by rwa [hi], h⟩

theorem Effect.of_dividingOp {i : Instr} {d r : Byte} (f : Byte → Byte → Byte) (s : State) (kind : IsRegisterWrite i)
    (dest : d ∈ i.registersWritten) : ∃ t, dividingOp (opcodeOf i) f d r s = .next t ∧ Effect i s t :=
  Effect.of_writeReg kind <| (dividingOp_cases (opcodeOf i) f d r s).imp_left fun ⟨_, _, hi, _, _, h⟩ => ⟨_, _, by rwa [hi], h⟩

theorem Effect.of_unaryOp {i : Instr} {d : Byte} (f : Byte → Byte) (s : State) (kind : IsRegisterWrite i)
    (dest : d ∈ i.registersWritten) : ∃ t, unaryOp (opcodeOf i) f d s = .next t ∧ Effect i s t :=
  Effect.of_writeReg kind <| (unaryOp_cases (opcodeOf i) f d s).imp_left fun ⟨_, hi, h⟩ => ⟨_, _, by rwa [hi], h⟩

theorem Effect.of_conditionalJump {i : Instr} {r : Byte} (cond : Flags → Bool) (s : State) (transfer : IsTransfer i)
    (length : operandBytes i ≠ []) : ∃ t, conditionalJump (opcodeOf i) cond r s = .next t ∧ Effect i s t := by
  rcases conditionalJump_cases (opcodeOf i) cond r s with ⟨j, -, h⟩ | h
  · refine ⟨_, h, ?_⟩
    split
    · exact .jump _ transfer
    · exact .fallThrough transfer length
  · exact Effect.of_fault h

/-- Every instruction answers a next state, and one that its kind of effect allows. -/
theorem exec_effect (i : Instr) (s : State) : ∃ t, exec i s = .next t ∧ Effect i s t := by
  cases i with
  | add d r => exact Effect.of_binaryOp (i := .add d r) (d := d) (r := r) aluAdd s (by simp [IsRegisterWrite]) (by simp [Instr.registersWritten])
  | sub d r => exact Effect.of_binaryOp (i := .sub d r) (d := d) (r := r) aluSub s (by simp [IsRegisterWrite]) (by simp [Instr.registersWritten])
  | mul d r => exact Effect.of_binaryOp (i := .mul d r) (d := d) (r := r) aluMul s (by simp [IsRegisterWrite]) (by simp [Instr.registersWritten])
  | div d r => exact Effect.of_dividingOp (i := .div d r) (d := d) (r := r) aluDiv s (by simp [IsRegisterWrite]) (by simp [Instr.registersWritten])
  | mod d r => exact Effect.of_dividingOp (i := .mod d r) (d := d) (r := r) aluMod s (by simp [IsRegisterWrite]) (by simp [Instr.registersWritten])
  | inc d => exact Effect.of_unaryOp (i := .inc d) (d := d) aluInc s (by simp [IsRegisterWrite]) (by simp [Instr.registersWritten])
  | dec d => exact Effect.of_unaryOp (i := .dec d) (d := d) aluDec s (by simp [IsRegisterWrite]) (by simp [Instr.registersWritten])
  | cmp d r =>
    rcases execCmp_cases d r s with ⟨i, j, -, -, h⟩ | h
    · exact ⟨_, h, .compare _ _⟩
    · exact Effect.of_fault h
  | and d r => exact Effect.of_binaryOp (i := .and d r) (d := d) (r := r) aluAnd s (by simp [IsRegisterWrite]) (by simp [Instr.registersWritten])
  | not d => exact Effect.of_unaryOp (i := .not d) (d := d) aluNot s (by simp [IsRegisterWrite]) (by simp [Instr.registersWritten])
  | or d r => exact Effect.of_binaryOp (i := .or d r) (d := d) (r := r) aluOr s (by simp [IsRegisterWrite]) (by simp [Instr.registersWritten])
  | xor d r => exact Effect.of_binaryOp (i := .xor d r) (d := d) (r := r) aluXor s (by simp [IsRegisterWrite]) (by simp [Instr.registersWritten])
  | shl d r => exact Effect.of_binaryOp (i := .shl d r) (d := d) (r := r) aluShl s (by simp [IsRegisterWrite]) (by simp [Instr.registersWritten])
  | shr d r => exact Effect.of_binaryOp (i := .shr d r) (d := d) (r := r) aluShr s (by simp [IsRegisterWrite]) (by simp [Instr.registersWritten])
  | push r =>
    rcases execPush_cases r s with ⟨i, -, hr, h⟩ | h
    · exact ⟨_, h, .push _ hr⟩
    · exact Effect.of_fault h
  | pop r =>
    rcases execPop_cases r s with ⟨i, rfl, hr, h⟩ | h
    · exact ⟨_, h, .pop i _ hr⟩
    · exact Effect.of_fault h
  | call r =>
    rcases execCall_cases r s with ⟨i, -, hroom, hr, h⟩ | h
    · exact ⟨_, h, .call _ _ hroom hr⟩
    · exact Effect.of_fault h
  | ret =>
    rcases execRet_cases s with ⟨hr, h⟩ | h
    · exact ⟨_, h, .ret _ hr⟩
    · exact Effect.of_fault h
  | ldi r imm =>
    exact Effect.of_writeReg (by simp [IsRegisterWrite]) <| (execLdi_cases r imm s).imp_left fun ⟨_, hi, h⟩ =>
      ⟨_, _, by simp [Instr.registersWritten, hi], h⟩
  | prn r =>
    rcases execPrn_cases r s with ⟨i, -, h⟩ | h
    · exact ⟨_, h, .print _⟩
    · exact Effect.of_fault h
  | hlt => exact ⟨_, rfl, .halt⟩
  | jmp r =>
    rcases execJmp_cases r s with ⟨i, -, h⟩ | h
    · exact ⟨_, h, .jump _ (by simp [IsTransfer])⟩
    · exact Effect.of_fault h
  | jeq r => exact Effect.of_conditionalJump (i := .jeq r) (r := r) Flags.equal s (by simp [IsTransfer]) (by simp [operandBytes])
  | jne r => exact Effect.of_conditionalJump (i := .jne r) (r := r) Flags.notEqual s (by simp [IsTransfer]) (by simp [operandBytes])
  | jgt r => exact Effect.of_conditionalJump (i := .jgt r) (r := r) Flags.greater s (by simp [IsTransfer]) (by simp [operandBytes])
  | jlt r => exact Effect.of_conditionalJump (i := .jlt r) (r := r) Flags.less s (by simp [IsTransfer]) (by simp [operandBytes])
  | jle r => exact Effect.of_conditionalJump (i := .jle r) (r := r) Flags.lessOrEqual s (by simp [IsTransfer]) (by simp [operandBytes])
  | jge r => exact Effect.of_conditionalJump (i := .jge r) (r := r) Flags.greaterOrEqual s (by simp [IsTransfer]) (by simp [operandBytes])

/-- What exec answered is an effect of the instruction's kind. -/
theorem effect_of_exec {i : Instr} {s t : State} (h : exec i s = .next t) : Effect i s t := by
  obtain ⟨u, hu, he⟩ := exec_effect i s
  rw [h] at hu
  exact (Host.Outcome.next.inj hu).symm ▸ he

end Sys2Proof.Machine
end

