-- ==== Sys2Proof/Laws/Fetch.lean ====
section
/-! SUPPORT. What the fetch and the decoder can answer, and all that a step can do. -/

namespace Sys2Proof

open Machine

/-- A row that the dispatch selects builds an instruction of that opcode byte, with the operand bytes it is given. -/
theorem select_ok {b : Byte} {build : Byte → Byte → Instr} (h : select b = .ok build) (x y : Byte) :
    operandCount b ≤ 2 ∧ opcodeOf (build x y) = b ∧ operandBytes (build x y) = [x, y].take (operandCount b) := by
  have found : ∃ row ∈ aluRows ++ handlerRows, row.byte = b ∧ row.build = build := by
    have row_of : ∀ {rows : List OpcodeRow}, findRow rows b = some build → ∃ row ∈ rows, row.byte = b ∧ row.build = build := by
      intro rows hf
      obtain ⟨row, hrow, hb⟩ := Option.map_eq_some_iff.1 hf
      exact ⟨row, List.mem_of_find?_eq_some hrow, by simpa using List.find?_some hrow, hb⟩
    unfold select at h
    split_ifs at h
    · cases hf : findRow aluRows b with
      | none => simp [hf] at h
      | some f =>
        simp only [hf, Except.ok.injEq] at h
        obtain ⟨row, hm, hrow⟩ := row_of (h ▸ hf)
        exact ⟨row, List.mem_append_left _ hm, hrow⟩
    · cases hf : findRow handlerRows b with
      | none => simp [hf] at h
      | some f =>
        simp only [hf, Except.ok.injEq] at h
        obtain ⟨row, hm, hrow⟩ := row_of (h ▸ hf)
        exact ⟨row, List.mem_append_right _ hm, hrow⟩
  obtain ⟨row, hm, rfl, rfl⟩ := found
  simp only [aluRows, handlerRows, List.cons_append, List.nil_append, List.mem_cons, List.not_mem_nil, or_false] at hm
  rcases hm with rfl | rfl | rfl | rfl | rfl | rfl | rfl | rfl | rfl | rfl | rfl | rfl | rfl | rfl | rfl | rfl | rfl | rfl | rfl |
    rfl | rfl | rfl | rfl | rfl | rfl | rfl | rfl | rfl
  all_goals exact ⟨by decide, rfl, rfl⟩

/-- Operand bytes that were fetched are as many as asked for and stand in memory from `a` (44_fetch_decode_execute.md R195). -/
theorem fetchOperands_ok {s : State} {a n : Nat} {ops : List Byte} (h : fetchOperands s a n = .ok ops) :
    ops.length = n ∧ ∀ k, k < n → s.memRead? (a + k) = ops[k]? := by
  induction n generalizing a ops with
  | zero =>
    cases h
    exact ⟨rfl, fun k hk => absurd hk (Nat.not_lt_zero k)⟩
  | succ n ih =>
    simp only [fetchOperands] at h
    cases hv : s.memRead? a with
    | none => simp [hv] at h
    | some v =>
      simp only [hv] at h
      cases hr : fetchOperands s (a + 1) n with
      | error e => simp [hr] at h
      | ok rest =>
        simp only [hr, Except.ok.injEq] at h
        obtain ⟨hl, hk⟩ := ih hr
        subst h
        refine ⟨by simp [hl], fun k hlt => ?_⟩
        cases k with
        | zero => simpa using hv
        | succ k =>
          rw [show a + (k + 1) = a + 1 + k by omega, hk k (by omega)]
          rfl

/-- The first operand byte past memory is at address 256 when the opcode byte is inside (44_fetch_decode_execute.md R195). -/
theorem fetchOperands_error {s : State} {a n e : Nat} (ha : a ≤ 256) (h : fetchOperands s a n = .error e) :
    e = 256 ∧ 256 < a + n := by
  induction n generalizing a e with
  | zero => cases h
  | succ n ih =>
    simp only [fetchOperands] at h
    cases hv : s.memRead? a with
    | none =>
      have := State.memRead?_eq_none.1 hv
      simp only [hv, Except.error.injEq] at h
      omega
    | some v =>
      have hlt : ¬ 256 ≤ a := fun hge => by simp [State.memRead?_eq_none.2 hge] at hv
      simp only [hv] at h
      cases hr : fetchOperands s (a + 1) n with
      | error e' =>
        simp only [hr, Except.error.injEq] at h
        obtain ⟨h1, h2⟩ := ih (by omega) hr
        omega
      | ok rest => simp [hr] at h

/-- What was fetched stands at the program counter (44_fetch_decode_execute.md R192 to R196). -/
theorem fetchInstr_ok {s : State} {i : Instr} (h : fetchInstr s = .ok i) : InstrAt s i := by
  unfold fetchInstr fetchBytes at h
  cases hb : s.memRead? s.pc.toNat with
  | none => simp [hb] at h
  | some b =>
    simp only [hb] at h
    split_ifs at h with h3
    cases hops : fetchOperands s (s.pc.toNat + 1) (operandCount b) with
    | error e => simp [hops] at h
    | ok ops =>
      obtain ⟨hl, hk⟩ := fetchOperands_ok hops
      simp only [hops, decode, h3, if_false, hl, lt_irrefl] at h
      cases hsel : select b with
      | error e => simp [hsel] at h
      | ok build =>
        obtain ⟨hle, hop, hargs⟩ := select_ok hsel (ops.getD 0 0) (ops.getD 1 0)
        simp only [hsel, Except.ok.injEq] at h
        subst h
        have henc : encode (build (ops.getD 0 0) (ops.getD 1 0)) = b :: ops := by
          rw [encode, hop, hargs]
          congr 1
          rw [← hl] at hle ⊢
          match ops, hle with
          | [], _ => rfl
          | [_], _ => rfl
          | [_, _], _ => rfl
        intro k hlt
        rw [henc] at hlt ⊢
        cases k with
        | zero => exact hb
        | succ k =>
          rw [show s.pc.toNat + (k + 1) = s.pc.toNat + 1 + k by omega, hk k (by simpa [hl] using hlt)]
          rfl

/-- A byte the dispatch does not select is rejected for one of two reasons (44_fetch_decode_execute.md R196). -/
theorem select_error {b : Byte} {e : Reject} (h : select b = .error e) : e = .unsupportedAlu ∨ e = .unimplemented := by
  unfold select at h
  split_ifs at h
  · split at h
    · cases h
    · exact .inl (Except.error.inj h).symm
  · split at h
    · cases h
    · exact .inr (Except.error.inj h).symm

/-- A fault of the phases before Execute names the byte at the program counter, none past memory, and records what its kind calls
for (10_state.md R31, 44_fetch_decode_execute.md R192 to R196). -/
theorem fetchInstr_error {s : State} {trap : Trap} (h : fetchInstr s = .error trap) :
    trap.opcode = s.memRead? s.pc.toNat ∧ InfoFits s trap.kind trap.info := by
  unfold fetchInstr fetchBytes at h
  cases hb : s.memRead? s.pc.toNat with
  | none =>
    simp only [hb, Except.error.injEq] at h
    subst h
    exact ⟨rfl, _, rfl, State.memRead?_eq_none.1 hb⟩
  | some b =>
    have hpc : ¬ 256 ≤ s.pc.toNat := fun hge => by simp [State.memRead?_eq_none.2 hge] at hb
    simp only [hb] at h
    split_ifs at h with h3
    · obtain rfl := Except.error.inj h
      exact ⟨rfl, .inl rfl⟩
    · cases hops : fetchOperands s (s.pc.toNat + 1) (operandCount b) with
      | error a =>
        simp only [hops, Except.error.injEq] at h
        subst h
        exact ⟨rfl, a, rfl, (fetchOperands_error (by omega) hops).1.ge⟩
      | ok ops =>
        simp only [hops, decode, h3, if_false, (fetchOperands_ok hops).1, lt_irrefl] at h
        cases hsel : select b with
        | ok build => simp [hsel] at h
        | error e =>
          simp only [hsel, Except.error.injEq] at h
          subst h
          rcases select_error hsel with rfl | rfl
          · exact ⟨rfl, rfl⟩
          · exact ⟨rfl, rfl⟩

/-- All that a step which answers a next state can do: it was taken from Running, and either a phase before Execute found a fault, or
the instruction at the program counter was executed and the program counter advanced. -/
theorem step_cases {s t : State} (h : step s = .next t) :
    s.status = .running ∧
    ((∃ trap, fetchInstr s = .error trap ∧ t = s.faultedWith trap.kind trap.opcode trap.info) ∨
     (∃ i, fetchInstr s = .ok i ∧ InstrAt s i ∧ advance (opcodeOf i) (exec i s) = .next t)) := by
  unfold step at h
  cases hs : s.status with
  | halted => simp [hs] at h
  | faulted r => simp [hs] at h
  | running =>
    simp only [hs] at h
    refine ⟨rfl, ?_⟩
    cases hf : fetchInstr s with
    | error trap =>
      simp only [hf, raise_eq, Host.Outcome.next.injEq] at h
      exact .inl ⟨trap, rfl, h.symm⟩
    | ok i =>
      simp only [hf] at h
      exact .inr ⟨i, rfl, fetchInstr_ok hf, h⟩

end Sys2Proof
end

