-- ==== Sys2Proof/Laws/PerInstr.lean ====
section
/-! SUPPORT. What holds of each instruction as syntax: the dispatch, given its opcode byte, selects a row that builds the
instruction back from its operand bytes. -/

namespace Sys2Proof.Laws.OpcodeSelects

/-- The opcode byte selects a row, and the row builds the instruction from its operand bytes, whatever bytes follow them. -/
def Statement (i : Instr) : Prop :=
  ∃ build, select (opcodeOf i) = .ok build ∧
    ∀ rest : List Byte, build ((operandBytes i ++ rest).getD 0 0) ((operandBytes i ++ rest).getD 1 0) = i

theorem add (d s : Byte) : Statement (.add d s) :=
  ⟨Instr.add, (rfl : select Opcode.add = .ok (Instr.add)), fun _ => rfl⟩
theorem sub (d s : Byte) : Statement (.sub d s) :=
  ⟨Instr.sub, (rfl : select Opcode.sub = .ok (Instr.sub)), fun _ => rfl⟩
theorem mul (d s : Byte) : Statement (.mul d s) :=
  ⟨Instr.mul, (rfl : select Opcode.mul = .ok (Instr.mul)), fun _ => rfl⟩
theorem div (d s : Byte) : Statement (.div d s) :=
  ⟨Instr.div, (rfl : select Opcode.div = .ok (Instr.div)), fun _ => rfl⟩
theorem mod (d s : Byte) : Statement (.mod d s) :=
  ⟨Instr.mod, (rfl : select Opcode.mod = .ok (Instr.mod)), fun _ => rfl⟩
theorem inc (d : Byte) : Statement (.inc d) :=
  ⟨fun r _ => Instr.inc r, (rfl : select Opcode.inc = .ok (fun r _ => Instr.inc r)), fun _ => rfl⟩
theorem dec (d : Byte) : Statement (.dec d) :=
  ⟨fun r _ => Instr.dec r, (rfl : select Opcode.dec = .ok (fun r _ => Instr.dec r)), fun _ => rfl⟩
theorem cmp (d s : Byte) : Statement (.cmp d s) :=
  ⟨Instr.cmp, (rfl : select Opcode.cmp = .ok (Instr.cmp)), fun _ => rfl⟩
theorem and (d s : Byte) : Statement (.and d s) :=
  ⟨Instr.and, (rfl : select Opcode.and = .ok (Instr.and)), fun _ => rfl⟩
theorem not (d : Byte) : Statement (.not d) :=
  ⟨fun r _ => Instr.not r, (rfl : select Opcode.not = .ok (fun r _ => Instr.not r)), fun _ => rfl⟩
theorem or (d s : Byte) : Statement (.or d s) :=
  ⟨Instr.or, (rfl : select Opcode.or = .ok (Instr.or)), fun _ => rfl⟩
theorem xor (d s : Byte) : Statement (.xor d s) :=
  ⟨Instr.xor, (rfl : select Opcode.xor = .ok (Instr.xor)), fun _ => rfl⟩
theorem shl (d s : Byte) : Statement (.shl d s) :=
  ⟨Instr.shl, (rfl : select Opcode.shl = .ok (Instr.shl)), fun _ => rfl⟩
theorem shr (d s : Byte) : Statement (.shr d s) :=
  ⟨Instr.shr, (rfl : select Opcode.shr = .ok (Instr.shr)), fun _ => rfl⟩
theorem push (r : Byte) : Statement (.push r) :=
  ⟨fun r _ => Instr.push r, (rfl : select Opcode.push = .ok (fun r _ => Instr.push r)), fun _ => rfl⟩
theorem pop (r : Byte) : Statement (.pop r) :=
  ⟨fun r _ => Instr.pop r, (rfl : select Opcode.pop = .ok (fun r _ => Instr.pop r)), fun _ => rfl⟩
theorem call (r : Byte) : Statement (.call r) :=
  ⟨fun r _ => Instr.call r, (rfl : select Opcode.call = .ok (fun r _ => Instr.call r)), fun _ => rfl⟩
theorem ret : Statement .ret :=
  ⟨fun _ _ => Instr.ret, (rfl : select Opcode.ret = .ok (fun _ _ => Instr.ret)), fun _ => rfl⟩
theorem ldi (r imm : Byte) : Statement (.ldi r imm) :=
  ⟨Instr.ldi, (rfl : select Opcode.ldi = .ok (Instr.ldi)), fun _ => rfl⟩
theorem prn (r : Byte) : Statement (.prn r) :=
  ⟨fun r _ => Instr.prn r, (rfl : select Opcode.prn = .ok (fun r _ => Instr.prn r)), fun _ => rfl⟩
theorem hlt : Statement .hlt :=
  ⟨fun _ _ => Instr.hlt, (rfl : select Opcode.hlt = .ok (fun _ _ => Instr.hlt)), fun _ => rfl⟩
theorem jmp (r : Byte) : Statement (.jmp r) :=
  ⟨fun r _ => Instr.jmp r, (rfl : select Opcode.jmp = .ok (fun r _ => Instr.jmp r)), fun _ => rfl⟩
theorem jeq (r : Byte) : Statement (.jeq r) :=
  ⟨fun r _ => Instr.jeq r, (rfl : select Opcode.jeq = .ok (fun r _ => Instr.jeq r)), fun _ => rfl⟩
theorem jne (r : Byte) : Statement (.jne r) :=
  ⟨fun r _ => Instr.jne r, (rfl : select Opcode.jne = .ok (fun r _ => Instr.jne r)), fun _ => rfl⟩
theorem jgt (r : Byte) : Statement (.jgt r) :=
  ⟨fun r _ => Instr.jgt r, (rfl : select Opcode.jgt = .ok (fun r _ => Instr.jgt r)), fun _ => rfl⟩
theorem jlt (r : Byte) : Statement (.jlt r) :=
  ⟨fun r _ => Instr.jlt r, (rfl : select Opcode.jlt = .ok (fun r _ => Instr.jlt r)), fun _ => rfl⟩
theorem jle (r : Byte) : Statement (.jle r) :=
  ⟨fun r _ => Instr.jle r, (rfl : select Opcode.jle = .ok (fun r _ => Instr.jle r)), fun _ => rfl⟩
theorem jge (r : Byte) : Statement (.jge r) :=
  ⟨fun r _ => Instr.jge r, (rfl : select Opcode.jge = .ok (fun r _ => Instr.jge r)), fun _ => rfl⟩

end Sys2Proof.Laws.OpcodeSelects
end

