-- ==== Sys2Proof/Laws/Run.lean ====
section
/-! SUPPORT. Runs: a run stays where it ends, and runs compose. What the host's load and run do to an instance. -/

namespace Sys2Proof

open Machine

/-- A step never leads out of a terminal state (44_fetch_decode_execute.md R191), so a run stays there. -/
theorem runSteps_of_terminal {s : State} (h : s.status ≠ .running) (k : Nat) : runSteps k s = s := by
  cases k with
  | zero => rfl
  | succ k =>
    rw [runSteps]
    cases hst : step s with
    | next t => exact absurd (step_cases hst).1 h
    | fault r => rfl
    | refused r => rfl

/-- Running `j + k` steps is running `j` and then `k`. -/
theorem runSteps_add (j k : Nat) (s : State) : runSteps (j + k) s = runSteps k (runSteps j s) := by
  induction j generalizing s with
  | zero => rw [Nat.zero_add]; rfl
  | succ j ih =>
    rw [Nat.succ_add_eq_add_succ, ← Nat.succ_eq_add_one, Nat.add_succ, runSteps, runSteps]
    cases hst : step s with
    | next t => exact ih t
    | fault r =>
      cases k with
      | zero => rfl
      | succ k => simp only [runSteps, hst]
    | refused r =>
      cases k with
      | zero => rfl
      | succ k => simp only [runSteps, hst]

/-- From the step count at which a run is in a terminal state on, it is in that state. -/
theorem runSteps_of_le {s : State} {j k : Nat} (h : (runSteps j s).status ≠ .running) (hjk : j ≤ k) :
    runSteps k s = runSteps j s := by
  obtain ⟨d, rfl⟩ := Nat.exists_eq_add_of_le hjk
  rw [runSteps_add, runSteps_of_terminal h]

namespace Machine

/-- An instance that is not freshly constructed refuses a load (70_reset_and_hazards.md R253). -/
theorem CpuInstance.load_refused {c : CpuInstance} (h : c.phase ≠ .constructed) (image : List Byte) :
    c.load image = (.refused, c) := by
  unfold CpuInstance.load
  split
  · exact absurd ‹_› h
  all_goals rfl

/-- No load leaves an instance freshly constructed. -/
theorem CpuInstance.phase_load (c : CpuInstance) (image : List Byte) : (c.load image).2.phase ≠ .constructed := by
  unfold CpuInstance.load
  split
  · split <;> simp
  all_goals simp_all

/-- After a failed load run is refused (70_reset_and_hazards.md R255). -/
theorem CpuInstance.run_of_loadFailed {c : CpuInstance} (h : c.phase = .loadFailed) (polls : List Bool) :
    c.run polls = (.refused, c) := by
  simp [CpuInstance.run, h]

/-- Otherwise run is its loop. -/
theorem CpuInstance.run_eq_runLoop {c : CpuInstance} (h : c.phase ≠ .loadFailed) (polls : List Bool) :
    c.run polls = c.runLoop polls := by
  unfold CpuInstance.run
  split
  · exact absurd ‹_› h
  all_goals rfl

@[simp] theorem CpuInstance.runLoop_of_halted {c : CpuInstance} (h : c.core.status = .halted) (polls : List Bool) :
    c.runLoop polls = (.halted, c) := by
  cases polls <;> simp [CpuInstance.runLoop, h]

@[simp] theorem CpuInstance.runLoop_of_faulted {c : CpuInstance} {r : FaultRecord} (h : c.core.status = .faulted r)
    (polls : List Bool) : c.runLoop polls = (.faulted r, c) := by
  cases polls <;> simp [CpuInstance.runLoop, h]

@[simp] theorem CpuInstance.runLoop_nil {c : CpuInstance} (h : c.core.status = .running) :
    c.runLoop [] = (.unfinished, c) := by
  simp [CpuInstance.runLoop, h]

/-- A set stop request ends the loop before the next Fetch (44_fetch_decode_execute.md R204). -/
@[simp] theorem CpuInstance.runLoop_stop {c : CpuInstance} (h : c.core.status = .running) (polls : List Bool) :
    c.runLoop (true :: polls) = (.stopped, c) := by
  simp [CpuInstance.runLoop, h]

/-- An unset one lets one step happen (44_fetch_decode_execute.md R203). -/
theorem CpuInstance.runLoop_step {c : CpuInstance} {t : State} (h : c.core.status = .running) (ht : step c.core = .next t)
    (polls : List Bool) : c.runLoop (false :: polls) = CpuInstance.runLoop polls ⟨t, .started⟩ := by
  simp [CpuInstance.runLoop, h, ht]

/-- Run leaves the instance as it was, or its phase started. -/
theorem CpuInstance.run_cases (c : CpuInstance) (polls : List Bool) :
    (c.run polls).2 = c ∨ (c.run polls).2.phase = .started := by
  by_cases hp : c.phase = .loadFailed
  · rw [run_of_loadFailed hp]; exact .inl rfl
  rw [run_eq_runLoop hp]
  clear hp
  induction polls generalizing c with
  | nil => unfold CpuInstance.runLoop; split <;> exact .inl rfl
  | cons stop polls ih =>
    unfold CpuInstance.runLoop
    split
    · exact .inl rfl
    · exact .inl rfl
    · split
      · exact .inl rfl
      · split
        · rename_i t _
          exact .inr ((ih ⟨t, .started⟩).elim (fun h => by rw [h]) id)
        · exact .inl rfl
        · exact .inl rfl

/-- Run leaves no instance freshly constructed that was not. -/
theorem CpuInstance.phase_run {c : CpuInstance} (h : c.phase ≠ .constructed) (polls : List Bool) :
    (c.run polls).2.phase ≠ .constructed := by
  rcases c.run_cases polls with hr | hr <;> rw [hr]
  · exact h
  · simp

end Machine

end Sys2Proof
end

