-- ==== Sys2Proof/Tests/Slice0.lean ====
section
/-! SUPPORT. The model's own tests: the well-formedness check, words written out from the encoding table, one step of each
instruction on values from 95_test_vectors.md, and for every obligation with hypotheses a state that meets them. -/

namespace Sys2Proof.Tests

open Sys2Proof Sys2Proof.Machine

/-! ### Helpers -/

/-- A running machine with `a` in R0, `b` in R1, SP at 0xF7, the program counter at `pc` and `code` there. -/
def at_ (pc : Nat) (a b : Byte) (code : List Byte) : State :=
  { State.reset with
    regs := #v[a, b, 0, 0, 0, 0, 0, 0xF7], pc := BitVec.ofNat 9 pc, mem := Memory.writeBytes [] pc code }

/-- The same with the code at 0. -/
def run1 (a b : Byte) (code : List Byte) : State := at_ 0 a b code

/-- The same with SP at `sp` and the stack's lowest address `limit`. -/
def atSp (sp : Byte) (limit : Fin 257) (code : List Byte) : State :=
  { (run1 0x10 0x40 code).setReg 7 sp with stackLimit := limit }

/-- The next state, if there is one. -/
def next? : StepOutcome → Option State
  | .next t => some t
  | .fault _ => none
  | .refused _ => none

/-- A register after one step. -/
def regAfter (r : Fin 8) (s : State) : Option Byte := (next? (step s)).map fun t => t.reg r

/-- The program counter after one step. -/
def pcAfter (s : State) : Option PcWord := (next? (step s)).map State.pc

/-- The status after one step. -/
def statusAfter (s : State) : Option Status := (next? (step s)).map State.status

/-- The flags after one step. -/
def flagsAfter (s : State) : Option Flags := (next? (step s)).map State.flags

/-! ### Well-formedness: an ill-formed term for the check of each reg operand, and the one operand that is not checked -/

theorem wf_refuses_add_op1 : (Instr.add 8 0).wellFormed = false := by decide
theorem wf_refuses_add_op2 : (Instr.add 0 8).wellFormed = false := by decide
theorem wf_refuses_binary :
    ([.sub 8 0, .sub 0 8, .mul 8 0, .mul 0 8, .div 8 0, .div 0 8, .mod 8 0, .mod 0 8, .cmp 8 0, .cmp 0 8, .and 8 0, .and 0 8,
      .or 8 0, .or 0 8, .xor 8 0, .xor 0 8, .shl 8 0, .shl 0 8, .shr 8 0, .shr 0 8] : List Instr).all
      (fun i => i.wellFormed == false) = true := by decide
theorem wf_refuses_unary :
    ([.inc 8, .dec 8, .not 8, .push 8, .pop 8, .call 8, .ldi 8 0, .prn 8, .jmp 8, .jeq 8, .jne 8, .jgt 8, .jlt 8, .jle 8,
      .jge 255] : List Instr).all (fun i => i.wellFormed == false) = true := by decide
theorem wf_accepts_boundary :
    ([.add 7 7, .inc 7, .push 0, .ret, .hlt, .ldi 7 255] : List Instr).all Instr.wellFormed = true := by decide

/-! ### Decode: the words of 30_encoding.md R77, written out -/

theorem decode_add : decode [0b10100000, 1, 2] = .ok (.add 1 2, []) := rfl
theorem decode_sub : decode [0b10100001, 1, 2] = .ok (.sub 1 2, []) := rfl
theorem decode_mul : decode [0b10100010, 1, 2] = .ok (.mul 1 2, []) := rfl
theorem decode_div : decode [0b10100011, 1, 2] = .ok (.div 1 2, []) := rfl
theorem decode_mod : decode [0b10100100, 1, 2] = .ok (.mod 1 2, []) := rfl
theorem decode_inc : decode [0b01100101, 3] = .ok (.inc 3, []) := rfl
theorem decode_dec : decode [0b01100110, 3] = .ok (.dec 3, []) := rfl
theorem decode_cmp : decode [0b10100111, 1, 2] = .ok (.cmp 1 2, []) := rfl
theorem decode_and : decode [0b10101000, 1, 2] = .ok (.and 1 2, []) := rfl
theorem decode_not : decode [0b01101001, 3] = .ok (.not 3, []) := rfl
theorem decode_or : decode [0b10101010, 1, 2] = .ok (.or 1 2, []) := rfl
theorem decode_xor : decode [0b10101011, 1, 2] = .ok (.xor 1 2, []) := rfl
theorem decode_shl : decode [0b10101100, 1, 2] = .ok (.shl 1 2, []) := rfl
theorem decode_shr : decode [0b10101101, 1, 2] = .ok (.shr 1 2, []) := rfl
theorem decode_push : decode [0b01000101, 3] = .ok (.push 3, []) := rfl
theorem decode_pop : decode [0b01000110, 3] = .ok (.pop 3, []) := rfl
theorem decode_call : decode [0b01010000, 3] = .ok (.call 3, []) := rfl
theorem decode_ret : decode [0b00010001] = .ok (.ret, []) := rfl
theorem decode_ldi : decode [0b10000010, 3, 255] = .ok (.ldi 3 255, []) := rfl
theorem decode_prn : decode [0b01000111, 3] = .ok (.prn 3, []) := rfl
theorem decode_hlt : decode [0b00000001] = .ok (.hlt, []) := rfl
theorem decode_jmp : decode [0b01010100, 3] = .ok (.jmp 3, []) := rfl
theorem decode_jeq : decode [0b01010101, 3] = .ok (.jeq 3, []) := rfl
theorem decode_jne : decode [0b01010110, 3] = .ok (.jne 3, []) := rfl
theorem decode_jgt : decode [0b01010111, 3] = .ok (.jgt 3, []) := rfl
theorem decode_jlt : decode [0b01011000, 3] = .ok (.jlt 3, []) := rfl
theorem decode_jle : decode [0b01011001, 3] = .ok (.jle 3, []) := rfl
theorem decode_jge : decode [0b01011010, 3] = .ok (.jge 3, []) := rfl

/-- V-DEC-8 to V-DEC-15. -/
theorem decode_rejects :
    decode [0x00] = .error .unimplemented ∧ decode [0x20] = .error .unsupportedAlu ∧
    decode [0xAE, 0, 1] = .error .unsupportedAlu ∧ decode [0x86, 0, 1] = .error .unimplemented ∧
    decode [0xC0] = .error .malformedLength ∧ decode [0xFF] = .error .malformedLength ∧
    decode [0x13] = .error .unimplemented ∧ decode [0x84, 0, 1] = .error .unimplemented ∧
    decode [0xA0, 1] = .error (.missingOperand 2) ∧ decode [] = .error .noBytes :=
  ⟨rfl, rfl, rfl, rfl, rfl, rfl, rfl, rfl, rfl, rfl⟩

/-- A word numbered as spec/opcode_table.json numbers it; the bits it is not given are zeros. -/
theorem decode_table_word :
    decodeTableWord 24 0x0201A0 = some (.add 1 2) ∧ decodeTableWord 8 0xA0 = some (.add 0 0) ∧
    decodeTableWord 16 0x0350 = some (.call 3) ∧ decodeTableWord 8 0x00 = none := by decide

/-- How many of the 64 bytes from `first` on decode, are malformed, name no ALU operation, have no handler. -/
def classCounts (first : Nat) : Nat × Nat × Nat × Nat :=
  ((List.range 64).map fun k => decode [BitVec.ofNat 8 (first + k), 0, 0]).foldl
    (fun n r =>
      match r with
      | .ok _ => (n.1 + 1, n.2)
      | .error .malformedLength => (n.1, n.2.1 + 1, n.2.2)
      | .error .unsupportedAlu => (n.1, n.2.1, n.2.2.1 + 1, n.2.2.2)
      | .error .unimplemented => (n.1, n.2.1, n.2.2.1, n.2.2.2 + 1)
      | .error .noBytes => n
      | .error (.missingOperand _) => n) (0, 0, 0, 0)

/-- Counted by hand from the rows of 30_encoding.md R81; the columns add up to its 28, 64, 82 and 82. -/
theorem class_counts_00 : classCounts 0x00 = (2, 0, 32, 30) := by rfl
theorem class_counts_40 : classCounts 0x40 = (14, 0, 29, 21) := by rfl
theorem class_counts_80 : classCounts 0x80 = (12, 0, 21, 31) := by rfl
theorem class_counts_C0 : classCounts 0xC0 = (0, 64, 0, 0) := by rfl

/-! ### The ALU (95_test_vectors.md L2.2) -/

theorem add_wraps : regAfter 0 (run1 0xC8 0x64 [0xA0, 0, 1]) = some 0x2C := by decide
theorem add_same_register : regAfter 0 (run1 0x80 0 [0xA0, 0, 0]) = some 0x00 := by decide
theorem sub_wraps : regAfter 0 (run1 0x03 0x05 [0xA1, 0, 1]) = some 0xFE := by decide
theorem mul_wraps : regAfter 0 (run1 0x14 0x0D [0xA2, 0, 1]) = some 0x04 := by decide
theorem div_floor : regAfter 0 (run1 0xC8 0x07 [0xA3, 0, 1]) = some 0x1C := by decide
theorem div_by_zero :
    statusAfter (run1 0x07 0 [0xA3, 0, 1]) = some (.faulted ⟨.divisionByZero, 0, some 0xA3, none⟩) ∧
    regAfter 0 (run1 0x07 0 [0xA3, 0, 1]) = some 0x07 ∧ pcAfter (run1 0x07 0 [0xA3, 0, 1]) = some 0 := by decide
theorem mod_remainder : regAfter 0 (run1 0xC8 0x07 [0xA4, 0, 1]) = some 0x04 := by decide
theorem mod_by_zero :
    statusAfter (run1 0x07 0 [0xA4, 0, 1]) = some (.faulted ⟨.divisionByZero, 0, some 0xA4, none⟩) := by decide
theorem and_bits : regAfter 0 (run1 0xF0 0x3C [0xA8, 0, 1]) = some 0x30 := by decide
theorem or_bits : regAfter 0 (run1 0xF0 0x0F [0xAA, 0, 1]) = some 0xFF := by decide
theorem xor_bits : regAfter 0 (run1 0xAA 0xFF [0xAB, 0, 1]) = some 0x55 := by decide
theorem shl_drops_bit7 : regAfter 0 (run1 0x81 0x01 [0xAC, 0, 1]) = some 0x02 := by decide
theorem shl_by_255 : regAfter 0 (run1 0xFF 0xFF [0xAC, 0, 1]) = some 0x00 := by decide
theorem shr_fills_zero : regAfter 0 (run1 0x81 0x01 [0xAD, 0, 1]) = some 0x40 := by decide
theorem shr_by_width : regAfter 0 (run1 0xFF 0x08 [0xAD, 0, 1]) = some 0x00 := by decide
theorem not_bits : regAfter 0 (run1 0x5A 0 [0x69, 0]) = some 0xA5 := by decide
theorem inc_wraps : regAfter 0 (run1 0xFF 0 [0x65, 0]) = some 0x00 ∧ pcAfter (run1 0xFF 0 [0x65, 0]) = some 2 := by decide
theorem inc_r7 : regAfter 7 (run1 0 0 [0x65, 7]) = some 0xF8 := by decide
theorem dec_wraps : regAfter 0 (run1 0x00 0 [0x66, 0]) = some 0xFF := by decide
/-- V-CMP-1, 2, 3. -/
theorem cmp_flags :
    flagsAfter (run1 3 5 [0xA7, 0, 1]) = some ⟨true, false, false⟩ ∧
    flagsAfter (run1 5 3 [0xA7, 0, 1]) = some ⟨false, true, false⟩ ∧
    flagsAfter (run1 4 4 [0xA7, 0, 1]) = some ⟨false, false, true⟩ := by decide
/-- V-CMP-5, 6. -/
theorem cmp_unsigned :
    flagsAfter (run1 0xFF 0x00 [0xA7, 0, 1]) = some ⟨false, true, false⟩ ∧
    flagsAfter (run1 0x00 0x80 [0xA7, 0, 1]) = some ⟨true, false, false⟩ := by decide
/-- V-ALU-F3 to V-ALU-F6. -/
theorem alu_fault_order :
    statusAfter (run1 0 0 [0xB0, 8, 8]) = some (.faulted ⟨.unsupportedAluOperation, 0, some 0xB0, none⟩) ∧
    statusAfter (run1 0 0 [0xA0, 0, 8]) = some (.faulted ⟨.malformedInstruction, 0, some 0xA0, some 8⟩) ∧
    statusAfter (run1 7 0 [0xA3, 0, 9]) = some (.faulted ⟨.malformedInstruction, 0, some 0xA3, some 9⟩) ∧
    statusAfter (run1 0 0 [0x65, 8]) = some (.faulted ⟨.malformedInstruction, 0, some 0x65, some 8⟩) := by decide

/-! ### The stack (95_test_vectors.md L2.3) -/

/-- V-STK-1. -/
theorem push_stores :
    (next? (step (run1 0x12 0 [0x45, 0]))).map (fun t => (t.sp, t.memRead? 0xF6, t.pc)) = some (0xF6, some 0x12, 2) := by decide
/-- V-STK-6. -/
theorem push_from_zero_faults :
    statusAfter (atSp 0 6 [0x45, 0]) = some (.faulted ⟨.stackOverflow, 0, some 0x45, some 0xFF⟩) := by decide
/-- V-STK-3. -/
theorem pop_empty_faults :
    statusAfter (run1 0 0 [0x46, 0]) = some (.faulted ⟨.stackUnderflow, 0, some 0x46, some 0xF7⟩) := by decide
/-- V-STK-10: the popped byte stands at 0xF6. -/
theorem pop_r7_keeps_popped :
    regAfter 7 ((atSp 0xF6 3 [0x46, 7]).memWrite 0xF6 0x10) = some 0x10 := by decide
/-- V-STK-11. -/
theorem call_r7_reads_after_push :
    (next? (step (run1 0 0 [0x50, 7]))).map (fun t => (t.pc, t.sp, t.memRead? 0xF6)) = some (0xF6, 0xF6, some 2) := by decide
/-- V-STK-12. -/
theorem call_at_254_faults :
    (next? (step (at_ 0xFE 0 0 [0x50, 0]))).map (fun t => (t.status, t.sp)) =
      some (.faulted ⟨.invalidMemoryAddress, 0xFE, some 0x50, some 0x100⟩, 0xF7) := by decide
/-- V-STK-4. -/
theorem ret_empty_faults :
    statusAfter (run1 0 0 [0x11]) = some (.faulted ⟨.stackUnderflow, 0, some 0x11, some 0xF7⟩) := by decide
/-- V-STK-13: RET pops any value. -/
theorem ret_pops :
    (next? (step ((atSp 0xF6 3 [0x11]).memWrite 0xF6 0x40))).map (fun t => (t.pc, t.sp)) = some (0x40, 0xF7) := by decide

/-! ### Handlers and jumps (95_test_vectors.md L2.4) -/

/-- V-H-1. -/
theorem ldi_immediate : regAfter 3 (run1 0 0 [0x82, 3, 0xFF]) = some 0xFF ∧ pcAfter (run1 0 0 [0x82, 3, 0xFF]) = some 3 := by decide
/-- V-H-2. -/
theorem ldi_r8_faults :
    statusAfter (run1 0 0 [0x82, 8, 0]) = some (.faulted ⟨.malformedInstruction, 0, some 0x82, some 8⟩) := by decide
/-- V-H-3. -/
theorem prn_appends : (next? (step (run1 42 0 [0x47, 0]))).map State.out = some [42] := by decide
/-- V-H-5. -/
theorem hlt_at_255_advances :
    (next? (step (at_ 0xFF 0 0 [0x01]))).map (fun t => (t.status, t.pc)) = some (.halted, 0x100) := by decide
/-- V-H-6. -/
theorem jmp_goes : pcAfter (run1 0 0x20 [0x54, 1]) = some 0x20 := by decide

/-- The program counters that a conditional jump at 0x10 with R1 = 0x40 leads to, for FL = 000, 100, 010, 001 (the rows of the
table of L2.4). -/
def jumpColumn (opcode : Byte) : List (Option PcWord) :=
  ([⟨false, false, false⟩, ⟨true, false, false⟩, ⟨false, true, false⟩, ⟨false, false, true⟩] : List Flags).map fun f =>
    pcAfter { at_ 0x10 0 0x40 [opcode, 1] with flags := f }

theorem jeq_column : jumpColumn 0x55 = [some 0x12, some 0x12, some 0x12, some 0x40] := by decide
theorem jne_column : jumpColumn 0x56 = [some 0x40, some 0x40, some 0x40, some 0x12] := by decide
theorem jgt_column : jumpColumn 0x57 = [some 0x12, some 0x12, some 0x40, some 0x12] := by decide
theorem jlt_column : jumpColumn 0x58 = [some 0x12, some 0x40, some 0x12, some 0x12] := by decide
theorem jge_column : jumpColumn 0x5A = [some 0x12, some 0x12, some 0x40, some 0x40] := by decide
theorem jle_column : jumpColumn 0x59 = [some 0x12, some 0x40, some 0x12, some 0x40] := by decide

/-! ### The step (95_test_vectors.md L2.5) -/

/-- V-FSM-1. -/
theorem prn_at_254_advances : pcAfter (at_ 0xFE 0 0 [0x47, 0]) = some 0x100 := by decide
/-- V-FSM-2 to V-FSM-5. -/
theorem fault_order :
    statusAfter (at_ 0xFF 0 0 [0x47]) = some (.faulted ⟨.invalidMemoryAddress, 0xFF, some 0x47, some 0x100⟩) ∧
    statusAfter (at_ 0xFF 0 0 [0xC3]) = some (.faulted ⟨.malformedInstruction, 0xFF, some 0xC3, none⟩) ∧
    statusAfter (at_ 0xFE 0 0 [0x9F]) = some (.faulted ⟨.invalidMemoryAddress, 0xFE, some 0x9F, some 0x100⟩) ∧
    statusAfter (at_ 0xFE 0 0 [0x20]) = some (.faulted ⟨.unsupportedAluOperation, 0xFE, some 0x20, none⟩) := by decide
/-- V-FSM-6: a stop request before the first step. -/
theorem stop_before_first_step :
    (CpuInstance.construct.run [true]) = (.stopped, CpuInstance.construct) := by rfl
/-- The codes of 60_exceptions.md R220, in its order. -/
theorem fault_codes :
    [FaultKind.divisionByZero, .unsupportedAluOperation, .unimplementedOpcode, .malformedInstruction, .stackOverflow,
      .stackUnderflow, .invalidMemoryAddress, .programTooLarge].map FaultKind.code = [1, 2, 3, 4, 5, 6, 7, 8] := by decide
/-- The placed word is what the next step runs. -/
theorem withFetchWord_runs : regAfter 3 (State.reset.withFetchWord 24 0xFF0382) = some 0xFF := by decide
/-- V-STK-8's load: the stack's lowest address is the argument, not the image's length. -/
theorem load_with_limit :
    (CpuInstance.construct.loadWithLimit 0xF5 [0x82, 0, 1]).1 = .loaded ∧
    (CpuInstance.construct.loadWithLimit 0xF5 [0x82, 0, 1]).2.core.stackLimit = 0xF5 ∧
    (CpuInstance.construct.loadWithLimit 0xF5 [0x82, 0, 1]).2.core.memRead? 0 = some 0x82 := by decide
/-- V-HOST-4: the trace at reset with the first bytes of the image of L1.2. -/
theorem trace_at_reset :
    (CpuInstance.construct.load [0x82, 0, 8]).2.core.trace =
      ⟨0, #v[some 0x82, some 0, some 8], #v[0, 0, 0, 0, 0, 0, 0, 0xF7]⟩ := by decide
/-- V-HOST-5, V-HOST-6. -/
theorem trace_past_memory :
    (at_ 0xFF 0 0 [0x01]).trace.bytes = #v[some 0x01, none, none] ∧ (at_ 0x100 0 0 []).trace.bytes = #v[none, none, none] := by
  decide

/-! ### Witnesses: states and operands that meet the hypotheses of the obligations, one for each clause -/

/-- The step of a state leads somewhere. -/
def steps (s : State) : Bool := (next? (step s)).isSome

theorem exists_next {o : StepOutcome} (h : (next? o).isSome = true) : ∃ t, o = .next t := by
  cases o with
  | next t => exact ⟨t, rfl⟩
  | fault r => cases h
  | refused r => cases h

/-- A state that meets the invariant and steps: StepKeepsInvariant. -/
theorem witness_StepKeepsInvariant : ∃ s t, Inv s ∧ step s = .next t :=
  ⟨State.reset, _, ⟨by decide, by decide, by decide, fun r h => by cases h⟩, rfl⟩

theorem witness_EncodeReturnsDecodedBytes : decode [0xA0, 1, 2, 0x01] = .ok (.add 1 2, [0x01]) := rfl

/-- The four classes at their boundary bytes. -/
theorem witness_EveryByteHasOneClass :
    (0xAD : Byte) ∈ assignedBytes ∧ 192 ≤ (0xC0 : Byte).toNat ∧
    ((0xBF : Byte).toNat < 192 ∧ (0xBF : Byte) ∉ assignedBytes ∧ (0xBF : Byte).getLsbD 5 = true) ∧
    ((0x9F : Byte).toNat < 192 ∧ (0x9F : Byte) ∉ assignedBytes ∧ (0x9F : Byte).getLsbD 5 = false) := by decide

/-- An instruction whose last byte is the last byte of memory. -/
theorem witness_StepRunsDecodedInstr :
    (at_ 0xFD 0 0 [0xA0, 0, 1]).status = .running ∧ InstrAt (at_ 0xFD 0 0 [0xA0, 0, 1]) (.add 0 1) := by
  unfold InstrAt; decide

/-- Execute faults: the first clause. -/
theorem witness_AdvanceMovesPastInstr_faulted :
    ∃ t, (run1 7 0 [0xA3, 0, 1]).status = .running ∧ InstrAt (run1 7 0 [0xA3, 0, 1]) (.div 0 1) ∧
      exec (.div 0 1) (run1 7 0 [0xA3, 0, 1]) = .next t ∧ t.status.isFaulted = true :=
  ⟨_, rfl, by unfold InstrAt; decide, rfl, by decide⟩

/-- `sets_pc` is 1: the first clause. -/
theorem witness_AdvanceMovesPastInstr_setsPc :
    ∃ t, (run1 0 0x20 [0x54, 1]).status = .running ∧ InstrAt (run1 0 0x20 [0x54, 1]) (.jmp 1) ∧
      exec (.jmp 1) (run1 0 0x20 [0x54, 1]) = .next t ∧ setsPc (opcodeOf (.jmp 1)) = true :=
  ⟨_, rfl, by unfold InstrAt; decide, rfl, by decide⟩

/-- The second clause, where the advance leaves 256 in a Running state. -/
theorem witness_AdvanceMovesPastInstr_256 :
    ∃ t u, (at_ 0xFE 0 0 [0x47, 0]).status = .running ∧ InstrAt (at_ 0xFE 0 0 [0x47, 0]) (.prn 0) ∧
      exec (.prn 0) (at_ 0xFE 0 0 [0x47, 0]) = .next t ∧ t.status.isFaulted = false ∧
      setsPc (opcodeOf (.prn 0)) = false ∧ step (at_ 0xFE 0 0 [0x47, 0]) = .next u ∧ u.pc.toNat = 256 ∧ u.status = .running :=
  ⟨_, _, rfl, by unfold InstrAt; decide, rfl, by decide, by decide, rfl, by decide, by decide⟩

theorem witness_FetchPastMemoryFaults : (at_ 256 0 0 []).status = .running ∧ 256 ≤ (at_ 256 0 0 []).pc.toNat := by decide

/-- The lowest such byte, with its operand bytes past memory. -/
theorem witness_OperandCountThreeFaults :
    (at_ 0xFF 0 0 [0xC0]).status = .running ∧ (at_ 0xFF 0 0 [0xC0]).memRead? (at_ 0xFF 0 0 [0xC0]).pc.toNat = some 0xC0 ∧
    192 ≤ (0xC0 : Byte).toNat := by decide

/-- An unassigned byte with two operand bytes, the second of them just past memory. -/
theorem witness_OperandFetchPastMemoryFaults :
    (at_ 0xFE 0 0 [0xBF]).status = .running ∧ (at_ 0xFE 0 0 [0xBF]).memRead? (at_ 0xFE 0 0 [0xBF]).pc.toNat = some 0xBF ∧
    (0xBF : Byte).toNat < 192 ∧ 256 ≤ (at_ 0xFE 0 0 [0xBF]).pc.toNat + operandCount 0xBF := by decide

/-- Bit 5 set, and the operand bytes just inside memory. -/
theorem witness_UnassignedByteFaults_alu :
    (at_ 0xFD 0 0 [0xBF]).status = .running ∧ (at_ 0xFD 0 0 [0xBF]).memRead? (at_ 0xFD 0 0 [0xBF]).pc.toNat = some 0xBF ∧
    (0xBF : Byte).toNat < 192 ∧ (at_ 0xFD 0 0 [0xBF]).pc.toNat + operandCount 0xBF ≤ 255 ∧ (0xBF : Byte) ∉ assignedBytes := by
  decide

/-- Bit 5 clear: the byte 0 of empty memory. -/
theorem witness_UnassignedByteFaults_handler :
    State.reset.status = .running ∧ State.reset.memRead? State.reset.pc.toNat = some 0x00 ∧ (0x00 : Byte).toNat < 192 ∧
    State.reset.pc.toNat + operandCount 0x00 ≤ 255 ∧ (0x00 : Byte) ∉ assignedBytes := by decide

/-- The first operand is checked before the second. -/
theorem witness_RegisterByteAboveSevenFaults :
    (Instr.add 8 9).regOperands.find? (fun b => decide (8 ≤ b.toNat)) = some 8 ∧
    (Instr.add 7 255).regOperands.find? (fun b => decide (8 ≤ b.toNat)) = some 255 := by decide

/-- A halted machine. -/
def halted : State := { State.reset with status := .halted }

theorem witness_StepDefinedExactlyWhenRunning :
    halted.status ≠ .running ∧ ({ halted with pc := 5 } : State).status = halted.status := by decide

/-- What a fault's step leads to, with its record. -/
theorem faulted_step {s : State} {r : FaultRecord} (h : statusAfter s = some (.faulted r)) :
    ∃ t, step s = .next t ∧ t.status = .faulted r := by
  unfold statusAfter at h
  cases hs : step s with
  | next t => rw [hs] at h; exact ⟨t, rfl, Option.some.inj h⟩
  | fault e => rw [hs] at h; cases h
  | refused e => rw [hs] at h; cases h

theorem witness_FaultChangesOnlyStatus :
    ∃ t, step State.reset = .next t ∧ t.status = .faulted ⟨.unimplementedOpcode, 0, some 0, none⟩ := faulted_step (by decide)

/-- Each reason a step can record. -/
theorem witness_FaultRecordInfoFitsReason :
    (∃ t, step (run1 7 0 [0xA3, 0, 1]) = .next t ∧ t.status = .faulted ⟨.divisionByZero, 0, some 0xA3, none⟩) ∧
    (∃ t, step (run1 0 0 [0x20]) = .next t ∧ t.status = .faulted ⟨.unsupportedAluOperation, 0, some 0x20, none⟩) ∧
    (∃ t, step (run1 0 0 [0x00]) = .next t ∧ t.status = .faulted ⟨.unimplementedOpcode, 0, some 0x00, none⟩) ∧
    (∃ t, step (run1 0 0 [0xC0]) = .next t ∧ t.status = .faulted ⟨.malformedInstruction, 0, some 0xC0, none⟩) ∧
    (∃ t, step (run1 0 0 [0x65, 8]) = .next t ∧ t.status = .faulted ⟨.malformedInstruction, 0, some 0x65, some 8⟩) ∧
    (∃ t, step (atSp 0xF8 0 [0x45, 0]) = .next t ∧ t.status = .faulted ⟨.stackOverflow, 0, some 0x45, some 0xF7⟩) ∧
    (∃ t, step (run1 0 0 [0x11]) = .next t ∧ t.status = .faulted ⟨.stackUnderflow, 0, some 0x11, some 0xF7⟩) ∧
    (∃ t, step (at_ 256 0 0 []) = .next t ∧ t.status = .faulted ⟨.invalidMemoryAddress, 256, none, some 256⟩) :=
  ⟨faulted_step (by decide), faulted_step (by decide), faulted_step (by decide), faulted_step (by decide),
    faulted_step (by decide), faulted_step (by decide), faulted_step (by decide), faulted_step (by decide)⟩

/-- A halting step, a faulting one, a terminal state, and an instance in one. -/
theorem witness_OnlyHltHalts :
    (∃ t, step (run1 0 0 [0x01]) = .next t ∧ t.status = .halted ∧ InstrAt (run1 0 0 [0x01]) .hlt) ∧
    (∃ t r, step State.reset = .next t ∧ t.status = .faulted r) ∧
    halted.status ≠ .running ∧ ({ core := halted, phase := .started } : CpuInstance).core.status ≠ .running :=
  ⟨⟨_, rfl, rfl, by unfold InstrAt; decide⟩, ⟨_, _, rfl, rfl⟩, by decide, by decide⟩

/-- A faulting step, one that advances, one that jumps. -/
theorem witness_PcChangesInTwoWays :
    (∃ t, step State.reset = .next t ∧ t.status.isFaulted = true) ∧
    (∃ t, step (at_ 0xFF 0 0 [0x01]) = .next t ∧ t.status.isFaulted = false ∧ t.pc.toNat = 256) ∧
    (∃ t, step (run1 0 0x20 [0x54, 1]) = .next t ∧ t.status.isFaulted = false ∧ t.pc.toNat = 0x20) ∧
    InstrAt (run1 0 0x20 [0x54, 1]) (.jmp 1) :=
  ⟨⟨_, rfl, rfl⟩, ⟨_, rfl, rfl, rfl⟩, ⟨_, rfl, rfl, rfl⟩, by unfold InstrAt; decide⟩

theorem witness_DivModResult : (run1 0xFF 1 []).reg 1 ≠ 0 ∧ (run1 0xFF 0 []).reg 1 = 0 := by decide

theorem witness_DivModByZeroFaults :
    ((run1 7 0 [0xA3, 0, 1]).status = .running ∧ (run1 7 0 [0xA3, 0, 1]).reg 1 = 0 ∧
      InstrAt (run1 7 0 [0xA3, 0, 1]) (.div (regByte 0) (regByte 1))) ∧
    ((run1 7 0 [0xA4, 0, 0]).setReg 0 0).status = .running ∧ ((run1 7 0 [0xA4, 0, 0]).setReg 0 0).reg 0 = 0 ∧
      InstrAt ((run1 7 0 [0xA4, 0, 0]).setReg 0 0) (.mod (regByte 0) (regByte 0)) := by
  unfold InstrAt; decide

theorem witness_ShiftResult : 8 ≤ ((run1 0xFF 8 []).reg 1).toNat := by decide

/-- The highest and the lowest cell a push reaches, and the first cells outside on either side. -/
theorem witness_PushResult :
    ((6 : Fin 257).val ≤ 0xF6 ∧ 0xF6 = ((atSp 0xF7 6 []).sp.toNat + 255) % 256) ∧
    ((6 : Fin 257).val ≤ 6 ∧ 6 = ((atSp 7 6 []).sp.toNat + 255) % 256 ∧ 6 ≤ 0xF6) ∧
    (¬ (6 ≤ 5 ∧ 5 ≤ 0xF6) ∧ 5 = ((atSp 6 6 []).sp.toNat + 255) % 256) ∧
    (¬ (6 ≤ 0xF7 ∧ 0xF7 ≤ 0xF6) ∧ 0xF7 = ((atSp 0xF8 6 []).sp.toNat + 255) % 256) := by decide

/-- The highest and the lowest cell a pop reads, for a register that is not 7 and for R7, and the empty stack. -/
theorem witness_PopResult :
    ((atSp 0xF6 6 []).stackLimit.val ≤ (atSp 0xF6 6 []).sp.toNat ∧ (atSp 0xF6 6 []).sp.toNat ≤ 0xF6) ∧
    ((atSp 6 6 []).stackLimit.val ≤ (atSp 6 6 []).sp.toNat ∧ (atSp 6 6 []).sp.toNat ≤ 0xF6) ∧
    ¬ ((atSp 0xF7 6 []).stackLimit.val ≤ (atSp 0xF7 6 []).sp.toNat ∧ (atSp 0xF7 6 []).sp.toNat ≤ 0xF6) ∧
    ¬ ((atSp 5 6 []).stackLimit.val ≤ (atSp 5 6 []).sp.toNat ∧ (atSp 5 6 []).sp.toNat ≤ 0xF6) ∧ (6 : Fin 8) ≠ 7 := by decide

/-- A return address of 256, one of 255 with no room, one of 255 with room. -/
theorem witness_CallResult :
    255 < (at_ 254 0 0 []).pc.toNat + 2 ∧
    ((at_ 253 0 0 []).pc.toNat + 2 ≤ 255 ∧ 0xF6 = ((at_ 253 0 0 []).sp.toNat + 255) % 256 ∧
      ¬ ((({ at_ 253 0 0 [] with stackLimit := 0xF7 } : State)).stackLimit.val ≤ 0xF6 ∧ 0xF6 ≤ 0xF6)) ∧
    ((at_ 253 0 0 []).pc.toNat + 2 ≤ 255 ∧ 0xF6 = ((at_ 253 0 0 []).sp.toNat + 255) % 256 ∧
      (at_ 253 0 0 []).stackLimit.val ≤ 0xF6 ∧ 0xF6 ≤ 0xF6) := by decide

theorem witness_RetResult :
    ((atSp 0xF6 6 []).stackLimit.val ≤ (atSp 0xF6 6 []).sp.toNat ∧ (atSp 0xF6 6 []).sp.toNat ≤ 0xF6) ∧
    ¬ ((atSp 0xF7 6 []).stackLimit.val ≤ (atSp 0xF7 6 []).sp.toNat ∧ (atSp 0xF7 6 []).sp.toNat ≤ 0xF6) := by decide

/-- The highest program counter of the fall-through clause; the flags of the conditional jumps' two cases, at the states of the
table of L2.4. -/
theorem witness_JumpResults :
    (at_ 256 0 0 []).pc.toNat ≤ 256 ∧ (run1 0 0 []).flags.e = false ∧ ({ run1 0 0 [] with flags := ⟨false, true, false⟩ } : State).flags.g = true := by decide

theorem witness_RegistersWrittenByTable :
    ∃ t, exec (.pop 0) (atSp 0xF6 6 []) = .next t ∧ regByte 1 ∉ (Instr.pop 0).registersWritten := ⟨_, rfl, by decide⟩

/-- An instruction that is no CMP, and a step on one. -/
theorem witness_OnlyCmpWritesFlags :
    (∃ t, (∀ d r, Instr.add 0 1 ≠ .cmp d r) ∧ exec (.add 0 1) (run1 1 2 [0xA0, 0, 1]) = .next t) ∧
    (∃ t, (∀ d r, ¬ InstrAt (run1 1 2 [0xA0, 0, 1]) (.cmp d r)) ∧ step (run1 1 2 [0xA0, 0, 1]) = .next t) :=
  ⟨⟨_, fun _ _ => Instr.noConfusion, rfl⟩,
   ⟨_, fun d r h => by
      have h0 := h 0 (by simp [encode])
      simp only [encode, opcodeOf, List.getElem?_cons_zero] at h0
      revert h0; decide, rfl⟩⟩

/-- A push and an address beside its cell; an instruction that stores nothing. -/
theorem witness_OnlyPushAndCallStore :
    (∃ t, exec (.push 0) (run1 5 0 []) = .next t ∧ 0xF5 ≠ (run1 5 0 []).pushAddress.toNat) ∧
    (∃ t, exec (.add 0 1) (run1 5 0 []) = .next t ∧ ¬ ∃ r, Instr.add 0 1 = .push r ∨ Instr.add 0 1 = .call r) :=
  ⟨⟨_, rfl, by decide⟩, ⟨_, rfl, by rintro ⟨r, h | h⟩ <;> cases h⟩⟩

theorem witness_ExecLeavesOtherFields :
    ∃ t, exec (.add 0 1) (run1 5 0 []) = .next t ∧ setsPc (opcodeOf (.add 0 1)) = false ∧
      (∀ r, Instr.add 0 1 ≠ .prn r) ∧ Instr.add 0 1 ≠ .hlt ∧ t.status.isFaulted = false :=
  ⟨_, rfl, by decide, fun _ => Instr.noConfusion, by decide, rfl⟩

/-- The cells next to the stack region on either side. -/
theorem witness_RunStoresOnlyInStackRegion : 5 < (atSp 0xF7 6 []).stackLimit.val ∧ 0xF6 < 0xF7 := by decide

theorem witness_JumpToItselfNeverEnds :
    (at_ 0xFE 0xFE 0 [0x54, 0]).status = .running ∧ InstrAt (at_ 0xFE 0xFE 0 [0x54, 0]) (.jmp (regByte 0)) ∧
    ((at_ 0xFE 0xFE 0 [0x54, 0]).reg 0).toNat = (at_ 0xFE 0xFE 0 [0x54, 0]).pc.toNat := by
  unfold InstrAt; decide

/-- L1.3. -/
theorem witness_PopUndoesPush : ∃ t, push 0x5A State.reset = .ok t := ⟨_, rfl⟩

/-- V-STK-14: the state after the CALL, and the same with the program counter at the RET. -/
theorem witness_RetReturnsPastCall :
    ∃ t u, (run1 0 7 [0x50, 1, 1, 0, 0, 0, 0, 0x11]).status = .running ∧
      InstrAt (run1 0 7 [0x50, 1, 1, 0, 0, 0, 0, 0x11]) (.call 1) ∧
      step (run1 0 7 [0x50, 1, 1, 0, 0, 0, 0, 0x11]) = .next t ∧ t.status = .running ∧
      u.status = .running ∧ u.sp = t.sp ∧ u.stackLimit = t.stackLimit ∧
      u.memRead? t.sp.toNat = t.memRead? t.sp.toNat ∧ InstrAt u .ret :=
  ⟨_, (run1 0 7 [0x50, 1, 1, 0, 0, 0, 0, 0x11]).setReg 7 0xF6 |>.memWrite 0xF6 2 |>.jumpTo 7,
    rfl, by unfold InstrAt; decide, rfl, rfl, rfl, rfl, rfl, rfl, by unfold InstrAt; decide⟩

/-- The empty image and the longest one; a byte of a short image and a cell past it. -/
theorem witness_LoadWritesImage :
    ([] : List Byte).length ≤ 256 ∧ (List.replicate 256 (1 : Byte)).length ≤ 256 ∧ 0 < ([1] : List Byte).length ∧
    ([1] : List Byte).length ≤ 1 ∧ 255 < 256 :=
  ⟨by decide, (List.length_replicate (n := 256)).le, by decide, by decide, by decide⟩

theorem witness_LoadSetsStackLimit :
    (List.replicate 256 (1 : Byte)).length ≤ 256 ∧ 0xF7 ≤ ({ State.reset with stackLimit := 0xF7 } : State).stackLimit.val :=
  ⟨(List.length_replicate (n := 256)).le, by decide⟩

theorem witness_OversizeLoadFails : 256 < (List.replicate 257 (1 : Byte)).length := by
  rw [List.length_replicate]; decide

/-- V-H-7 as an instance: JMP R1 at 0 with R1 = 0, whose step leads back to the same core. -/
def selfJump : CpuInstance := { core := run1 0 0 [0x54, 1], phase := .loaded }

/-- Runs that take a step: one that faults, and one whose step leads back to the same core. -/
theorem witness_LateLoadRefused :
    (CpuInstance.construct.phase ≠ .loadFailed ∧ CpuInstance.construct.core.status = .running) ∧
    (selfJump.phase ≠ .loadFailed ∧ selfJump.core.status = .running ∧ (selfJump.run [false]).2.core = selfJump.core) := by
  decide

/-- An instance that may run in each status, one that may not, and each answer: halted, faulted, stopped, unfinished, refused. -/
theorem witness_RunReportsHowItEnded :
    (selfJump.phase ≠ .loadFailed ∧ selfJump.core.status = .running) ∧
    (∃ c : CpuInstance, c.phase ≠ .loadFailed ∧ c.core.status = .halted) ∧
    (∃ (c : CpuInstance) (r : FaultRecord), c.phase ≠ .loadFailed ∧ c.core.status = .faulted r) ∧
    ((CpuInstance.construct.load [0x01]).2.run [false]).1 = .halted ∧
    (CpuInstance.construct.run [false]).1 = .faulted ⟨.unimplementedOpcode, 0, some 0, none⟩ ∧
    (CpuInstance.construct.run [true]).1 = .stopped ∧ (CpuInstance.construct.run []).1 = .unfinished ∧
    (({ core := State.reset, phase := .loadFailed } : CpuInstance).run [false]).1 = .refused :=
  ⟨by decide, ⟨⟨halted, .started⟩, by decide⟩, ⟨(CpuInstance.construct.run [false]).2, _, by decide, rfl⟩,
    by decide, by decide, by decide, by decide, by decide⟩

/-- The last byte of memory and the first address past it. -/
theorem witness_TraceReadsState :
    (at_ 0xFF 0 0 []).trace.bytes[(0 : Fin 3)] = some 0 ∧ (at_ 0xFF 0 0 []).trace.bytes[(1 : Fin 3)] = none := by decide

end Sys2Proof.Tests
end

/-! SUPPORT. The instruction at the program counter, what each effect keeps, all that a step can do, and the invariant. -/

namespace Sys2Proof

open Machine

/-- The dispatch selects every instruction's row by its opcode byte (44_fetch_decode_execute.md R196). -/
theorem opcodeSelects (i : Instr) : Laws.OpcodeSelects.Statement i :=
  match i with
  | .add d s => Laws.OpcodeSelects.add d s
  | .sub d s => Laws.OpcodeSelects.sub d s
  | .mul d s => Laws.OpcodeSelects.mul d s
  | .div d s => Laws.OpcodeSelects.div d s
  | .mod d s => Laws.OpcodeSelects.mod d s
  | .inc d => Laws.OpcodeSelects.inc d
  | .dec d => Laws.OpcodeSelects.dec d
  | .cmp d s => Laws.OpcodeSelects.cmp d s
  | .and d s => Laws.OpcodeSelects.and d s
  | .not d => Laws.OpcodeSelects.not d
  | .or d s => Laws.OpcodeSelects.or d s
  | .xor d s => Laws.OpcodeSelects.xor d s
  | .shl d s => Laws.OpcodeSelects.shl d s
  | .shr d s => Laws.OpcodeSelects.shr d s
  | .push r => Laws.OpcodeSelects.push r
  | .pop r => Laws.OpcodeSelects.pop r
  | .call r => Laws.OpcodeSelects.call r
  | .ret => Laws.OpcodeSelects.ret
  | .ldi r imm => Laws.OpcodeSelects.ldi r imm
  | .prn r => Laws.OpcodeSelects.prn r
  | .hlt => Laws.OpcodeSelects.hlt
  | .jmp r => Laws.OpcodeSelects.jmp r
  | .jeq r => Laws.OpcodeSelects.jeq r
  | .jne r => Laws.OpcodeSelects.jne r
  | .jgt r => Laws.OpcodeSelects.jgt r
  | .jlt r => Laws.OpcodeSelects.jlt r
  | .jle r => Laws.OpcodeSelects.jle r
  | .jge r => Laws.OpcodeSelects.jge r

/-- No instruction has more than two operand bytes (30_encoding.md R84). -/
theorem operandCount_opcodeOf_le_two (i : Instr) : operandCount (opcodeOf i) ≤ 2 := by
  obtain ⟨build, hsel, -⟩ := opcodeSelects i
  exact (select_ok hsel 0 0).1

/-- No instruction has the malformed length (30_encoding.md R81). -/
theorem operandCount_opcodeOf_ne_three (i : Instr) : operandCount (opcodeOf i) ≠ 3 :=
  (Nat.lt_succ_of_le (operandCount_opcodeOf_le_two i)).ne

/-- Bits 7:6 of an instruction's opcode byte count its operand bytes (30_encoding.md R71). -/
theorem length_operandBytes (i : Instr) : (operandBytes i).length = operandCount (opcodeOf i) := by
  obtain ⟨build, hsel, hbuild⟩ := opcodeSelects i
  obtain ⟨hle, -, hargs⟩ := select_ok hsel ((operandBytes i ++ []).getD 0 0) ((operandBytes i ++ []).getD 1 0)
  rw [hbuild] at hargs
  rw [hargs, List.length_take]
  exact min_eq_left hle

theorem length_encode (i : Instr) : (encode i).length = operandCount (opcodeOf i) + 1 := by
  rw [encode, List.length_cons, length_operandBytes i]

/-- Decoding undoes encoding, whatever bytes follow (30_encoding.md R70, R73). -/
theorem decode_encode_append (i : Instr) (rest : List Byte) : decode (encode i ++ rest) = .ok (i, rest) := by
  obtain ⟨build, hsel, hbuild⟩ := opcodeSelects i
  have hlen := length_operandBytes i
  have hroom : ¬ (operandBytes i ++ rest).length < operandCount (opcodeOf i) := by
    rw [List.length_append]; omega
  rw [encode, List.cons_append, decode, if_neg (operandCount_opcodeOf_ne_three i), if_neg hroom, hsel]
  simp only [hbuild, ← hlen, List.drop_left]

/-- Bit 4 of the opcode byte marks the instructions that position the program counter themselves (30_encoding.md R71). -/
theorem setsPc_opcodeOf_iff {i : Instr} : setsPc (opcodeOf i) = true ↔ IsTransfer i := by
  constructor
  · intro h
    cases i with
    | ret | call | jmp | jeq | jne | jgt | jlt | jle | jge => simp [IsTransfer]
    | add | sub | mul | div | mod | inc | dec | cmp | and | not | or | xor | shl | shr | push | pop | ldi | prn | hlt =>
      simp only [opcodeOf] at h
      exact absurd h (by decide)
  · rintro (rfl | ⟨r, rfl | rfl | rfl | rfl | rfl | rfl | rfl | rfl⟩) <;> simp only [opcodeOf] <;> decide

/-! ### The bytes at the program counter -/

theorem Machine.InstrAt.memRead?_pc {s : State} {i : Instr} (h : InstrAt s i) :
    s.memRead? s.pc.toNat = some (opcodeOf i) :=
  h 0 (Nat.succ_pos _)

theorem Machine.InstrAt.memRead?_operand {s : State} {i : Instr} (h : InstrAt s i) {k : Nat}
    (hk : k < (operandBytes i).length) : s.memRead? (s.pc.toNat + 1 + k) = (operandBytes i)[k]? := by
  have hbyte := h (k + 1) (Nat.succ_lt_succ hk)
  rwa [encode, List.getElem?_cons_succ, Nat.add_comm k, ← Nat.add_assoc] at hbyte

/-- The bytes of the instruction at the program counter end inside memory (10_state.md R26). -/
theorem Machine.InstrAt.pc_add_length_le {s : State} {i : Instr} (h : InstrAt s i) :
    s.pc.toNat + operandCount (opcodeOf i) + 1 ≤ 256 := by
  have hlast := h (operandCount (opcodeOf i)) (by rw [length_encode]; omega)
  by_contra hpast
  rw [State.memRead?_eq_none.2 (by omega), eq_comm, List.getElem?_eq_none_iff, length_encode] at hlast
  omega

/-- Operand bytes that stand in memory are fetched (44_fetch_decode_execute.md R195). -/
theorem fetchOperands_of_memRead? {s : State} {ops : List Byte} {a : Nat}
    (h : ∀ k, k < ops.length → s.memRead? (a + k) = ops[k]?) : fetchOperands s a ops.length = .ok ops := by
  induction ops generalizing a with
  | nil => rfl
  | cons v rest ih =>
    have hv : s.memRead? a = some v := h 0 (Nat.succ_pos _)
    have hrest : fetchOperands s (a + 1) rest.length = .ok rest := ih fun k hk => by
      have hbyte := h (k + 1) (Nat.succ_lt_succ hk)
      rwa [List.getElem?_cons_succ, Nat.add_comm k, ← Nat.add_assoc] at hbyte
    simp only [List.length_cons, fetchOperands, hv, hrest]

/-- The instruction whose bytes stand at the program counter is the one fetched; no alignment is asked for (10_state.md R27). -/
theorem Machine.InstrAt.fetchInstr_eq {s : State} {i : Instr} (h : InstrAt s i) : fetchInstr s = .ok i := by
  have hops : fetchOperands s (s.pc.toNat + 1) (operandCount (opcodeOf i)) = .ok (operandBytes i) := by
    rw [← length_operandBytes i]
    exact fetchOperands_of_memRead? fun k hk => h.memRead?_operand hk
  have hbytes : fetchBytes s = .ok (encode i) := by
    simp only [fetchBytes, h.memRead?_pc, if_neg (operandCount_opcodeOf_ne_three i), hops, encode]
  have hdecode : decode (encode i) = .ok (i, []) := by
    simpa using decode_encode_append i []
  simp only [fetchInstr, hbytes, hdecode]

/-- A step from Running is Execute and Advance of the instruction at the program counter (44_fetch_decode_execute.md R202). -/
theorem Machine.InstrAt.step_eq {s : State} {i : Instr} (h : InstrAt s i) (hs : s.status = .running) :
    step s = advance (opcodeOf i) (exec i s) := by
  simp only [step, hs, h.fetchInstr_eq]

/-- The program counter after an advance that stays in its range is not wrapped (10_state.md R26). -/
theorem Machine.State.toNat_pc_skip {s : State} {n : Nat} (h : s.pc.toNat + n ≤ 256) :
    (s.skip n).pc.toNat = s.pc.toNat + n := by
  rw [State.skip_pc, BitVec.toNat_add, BitVec.toNat_ofNat]
  omega

/-! ### What an effect keeps, one field at a time -/

namespace Machine.Effect

variable {i : Instr} {s t : State}

/-- An effect is a fault, the halt of HLT, or leaves the status (10_state.md R30). -/
theorem status_cases (h : Effect i s t) :
    (∃ k info, InfoFits s k info ∧ t = s.faultedWith k (some (opcodeOf i)) info) ∨
    (i = .hlt ∧ t.status = .halted) ∨ t.status = s.status := by
  cases h with
  | fault k info fits => exact .inl ⟨k, info, fits, rfl⟩
  | halt => exact .inr (.inl ⟨rfl, rfl⟩)
  | writeReg | compare | push | pop | call | ret | print | jump | fallThrough => exact .inr (.inr rfl)

/-- The program counter moves only in an instruction that sets it (10_state.md R27). -/
theorem pc_eq (h : Effect i s t) (hi : setsPc (opcodeOf i) = false) : t.pc = s.pc := by
  have not_transfer : ¬ IsTransfer i := fun ht => by simp [setsPc_opcodeOf_iff.2 ht] at hi
  cases h with
  | call => exact absurd (.inr ⟨_, .inl rfl⟩) not_transfer
  | ret => exact absurd (.inl rfl) not_transfer
  | jump _ ht | fallThrough ht _ => exact absurd ht not_transfer
  | fault | writeReg | compare | push | pop | print | halt => rfl

/-- Execute leaves the program counter in its range: a byte, or at most the end of the instruction (10_state.md R26). -/
theorem toNat_pc_le (h : Effect i s t) (hi : InstrAt s i) : t.pc.toNat ≤ 256 := by
  have hend := hi.pc_add_length_le
  have byte_le (v : Byte) : (v.setWidth 9).toNat ≤ 256 := by
    rw [BitVec.toNat_setWidth]; omega
  cases h with
  | call v target | ret target | jump target => exact byte_le target
  | fallThrough _ length =>
    have hlen : 0 < operandCount (opcodeOf i) := length_operandBytes i ▸ List.length_pos_iff.2 length
    rw [State.toNat_pc_skip (by omega)]
    omega
  | fault | writeReg | compare | push | pop | print | halt =>
    show s.pc.toNat ≤ 256
    omega

/-- Only CMP writes the flags, and it writes those of a comparison (40_alu.md R115, R116). -/
theorem flags_cases (h : Effect i s t) :
    t.flags = s.flags ∨ ∃ d r a b, i = .cmp d r ∧ t.flags = compareFlags a b := by
  cases h with
  | compare a b => exact .inr ⟨_, _, a, b, rfl, rfl⟩
  | fault | writeReg | push | pop | call | ret | print | halt | jump | fallThrough => exact .inl rfl

/-- Only PRN writes `out`, and it appends one value (42_handlers.md R162). -/
theorem out_cases (h : Effect i s t) : t.out = s.out ∨ ∃ r v, i = .prn r ∧ t.out = s.out ++ [v] := by
  cases h with
  | print v => exact .inr ⟨_, v, rfl, rfl⟩
  | fault | writeReg | compare | push | pop | call | ret | halt | jump | fallThrough => exact .inl rfl

/-- No instruction writes `stack_limit` (10_state.md R33). -/
theorem stackLimit_eq (h : Effect i s t) : t.stackLimit = s.stackLimit := by
  cases h <;> rfl

/-- The only stores are those of PUSH and CALL, and they keep memory in canonical form (20_memory.md R50). -/
theorem memory_wf (h : Effect i s t) (hs : Memory.wf s.mem = true) : Memory.wf t.mem = true := by
  cases h with
  | push | call => exact Memory.wf_write _ hs (BitVec.isLt _)
  | fault | writeReg | compare | pop | ret | print | halt | jump | fallThrough => exact hs

/-- A register the access table does not name as written holds what it held (10_state.md R23). -/
theorem reg_eq (h : Effect i s t) {q : Fin 8} (hq : regByte q ∉ i.registersWritten) : t.reg q = s.reg q := by
  have ne_of_mem {r : Fin 8} (hr : regByte r ∈ i.registersWritten) : q ≠ r := fun hqr => hq (hqr ▸ hr)
  cases h with
  | writeReg r v _ dest => exact State.reg_setReg_of_ne s v (ne_of_mem dest)
  | push | call => exact State.reg_setReg_of_ne s _ (ne_of_mem (r := 7) List.mem_cons_self)
  | ret => exact State.reg_setReg_of_ne s _ (ne_of_mem (r := 7) List.mem_cons_self)
  | pop r v =>
    have hr : q ≠ r := ne_of_mem (List.mem_cons_of_mem _ List.mem_cons_self)
    have h7 : q ≠ 7 := ne_of_mem (r := 7) List.mem_cons_self
    rw [State.reg_setReg_of_ne _ v hr, State.reg_setSp, if_neg h7]
  | fault | compare | print | halt | jump | fallThrough => rfl

end Machine.Effect

/-! ### All that a step can do -/

/-- The step from `s` ran instruction `i` without a fault: Execute left `u`, and Advance made `t` of it
(44_fetch_decode_execute.md R198, R199). -/
structure Completes (s : State) (i : Instr) (u t : State) : Prop where
  instrAt : InstrAt s i
  executes : exec i s = .next u
  effect : Effect i s u
  notFaulted : u.status.isFaulted = false
  advances : t = if setsPc (opcodeOf i) = true then u else u.skip (operandCount (opcodeOf i) + 1)

/-- A step is taken from Running, and it faults, with a record that names the byte at the program counter, or it completes an
instruction (44_fetch_decode_execute.md R191, R201, R202). -/
theorem step_faults_or_completes {s t : State} (h : step s = .next t) :
    s.status = .running ∧
    ((∃ k info, InfoFits s k info ∧ t = s.faultedWith k (s.memRead? s.pc.toNat) info) ∨ ∃ i u, Completes s i u t) := by
  obtain ⟨hs, ⟨trap, htrap, rfl⟩ | ⟨i, -, hi, hadv⟩⟩ := step_cases h
  · obtain ⟨hop, hfits⟩ := fetchInstr_error htrap
    exact ⟨hs, .inl ⟨_, _, hfits, by rw [hop]⟩⟩
  · obtain ⟨u, hu, he⟩ := exec_effect i s
    rw [hu, advance_next] at hadv
    refine ⟨hs, ?_⟩
    cases hf : u.status.isFaulted with
    | false =>
      refine .inr ⟨i, u, hi, hu, he, hf, ?_⟩
      rw [hf, Bool.or_false] at hadv
      split_ifs at hadv ⊢ <;> exact (Host.Outcome.next.inj hadv).symm
    | true =>
      rw [hf, Bool.or_true, if_pos rfl] at hadv
      obtain rfl := Host.Outcome.next.inj hadv
      obtain ⟨k, info, hfits, rfl⟩ | ⟨-, hhalt⟩ | hsame := he.status_cases
      · exact .inl ⟨k, info, hfits, by rw [hi.memRead?_pc]⟩
      · rw [hhalt] at hf; cases hf
      · rw [hsame, hs] at hf; cases hf

namespace Completes

variable {i : Instr} {s u t : State}

/-- Advance changes the program counter alone. -/
theorem eq_setPc (h : Completes s i u t) : t = { u with pc := t.pc } := by
  obtain ⟨-, -, -, -, rfl⟩ := h
  split_ifs <;> rfl

theorem status_eq (h : Completes s i u t) : t.status = u.status := by rw [h.eq_setPc]

theorem flags_eq (h : Completes s i u t) : t.flags = u.flags := by rw [h.eq_setPc]

theorem mem_eq (h : Completes s i u t) : t.mem = u.mem := by rw [h.eq_setPc]

/-- A step that completes moves the program counter past the instruction, unless the instruction set it (10_state.md R27). -/
theorem pc_cases (h : Completes s i u t) :
    (setsPc (opcodeOf i) = false ∧ t.pc.toNat = s.pc.toNat + operandCount (opcodeOf i) + 1) ∨
    (setsPc (opcodeOf i) = true ∧ t = u) := by
  obtain ⟨hi, -, he, -, rfl⟩ := h
  cases hset : setsPc (opcodeOf i) with
  | true => exact .inr ⟨rfl, if_pos rfl⟩
  | false =>
    have hend := hi.pc_add_length_le
    rw [← he.pc_eq hset] at hend ⊢
    exact .inl ⟨rfl, State.toNat_pc_skip hend⟩

/-- A step that completes leaves the program counter at most one past memory (10_state.md R26). -/
theorem toNat_pc_le (h : Completes s i u t) : t.pc.toNat ≤ 256 := by
  obtain ⟨-, hpc⟩ | ⟨-, rfl⟩ := h.pc_cases
  · rw [hpc]; exact h.instrAt.pc_add_length_le
  · exact h.effect.toNat_pc_le h.instrAt

/-- A step that completes from Running leads to Halted for HLT and stays Running for every other instruction (10_state.md R30). -/
theorem status_cases (h : Completes s i u t) (hs : s.status = .running) :
    (i = .hlt ∧ t.status = .halted) ∨ t.status = .running := by
  rw [h.status_eq]
  obtain ⟨k, info, -, rfl⟩ | hhalt | hsame := h.effect.status_cases
  · exact absurd h.notFaulted Bool.noConfusion
  · exact .inl hhalt
  · exact .inr (hsame.trans hs)

end Completes

/-! ### The invariant -/

/-- The flags of a comparison exclude each other (10_state.md R29). -/
theorem compareFlags_legal (a b : Byte) : (compareFlags a b).legal = true := by
  simp only [Flags.legal, compareFlags, Bool.and_eq_true, Bool.not_eq_true', Bool.and_eq_false_iff, decide_eq_false_iff_not]
  omega

/-- No fault that a step takes is ProgramTooLarge (60_exceptions.md R228). -/
theorem Machine.InfoFits.ne_programTooLarge {s : State} {k : FaultKind} {info : Option Nat} (h : InfoFits s k info) :
    k ≠ .programTooLarge := by
  rintro rfl
  exact h

/-- A fault that names the byte at the program counter keeps the invariant (10_state.md R31). -/
theorem Inv.faultedWith {s : State} (hs : Inv s) {k : FaultKind} (hk : k ≠ .programTooLarge) (info : Option Nat) :
    Inv (s.faultedWith k (s.memRead? s.pc.toNat) info) where
  memory := hs.memory
  pcRange := hs.pcRange
  flags := hs.flags
  record r hr := by
    obtain rfl := Status.faulted.inj hr
    exact ⟨rfl, rfl, hk⟩

/-- A step that completes keeps the invariant. -/
theorem Completes.inv {i : Instr} {s u t : State} (h : Completes s i u t) (hs : Inv s) : Inv t where
  memory := h.mem_eq ▸ h.effect.memory_wf hs.memory
  pcRange := h.toNat_pc_le
  flags := by
    rw [h.flags_eq]
    obtain hsame | ⟨_, _, a, b, -, hcmp⟩ := h.effect.flags_cases
    · rw [hsame]; exact hs.flags
    · rw [hcmp]; exact compareFlags_legal a b
  record r hr := by
    have hf := h.notFaulted
    rw [← h.status_eq, hr] at hf
    cases hf

/-- Settles O3: a fault writes a true record and nothing else, and a completed instruction keeps each part of the invariant. -/
theorem stepKeepsInvariant : Obligations.StepKeepsInvariant := by
  intro s t hinv hstep
  obtain ⟨-, ⟨k, info, hfits, rfl⟩ | ⟨i, u, hdone⟩⟩ := step_faults_or_completes hstep
  · exact hinv.faultedWith hfits.ne_programTooLarge info
  · exact hdone.inv hinv

/-- Settles O20: by what a step can do, and because the bytes at the program counter decode to the instruction they encode. -/
theorem pcChangesInTwoWays : Obligations.PcChangesInTwoWays := by
  refine ⟨fun s t hstep => ?_, fun s i hi => hi.fetchInstr_eq⟩
  obtain ⟨hs, ⟨k, info, -, rfl⟩ | ⟨i, u, hdone⟩⟩ := step_faults_or_completes hstep
  · exact ⟨fun _ => rfl, nofun⟩
  · have hf : t.status.isFaulted = false := hdone.status_eq ▸ hdone.notFaulted
    refine ⟨fun ht => absurd (ht.symm.trans hf) Bool.noConfusion, fun _ => ⟨i, hdone.instrAt, ?_⟩⟩
    obtain hadv | ⟨hset, rfl⟩ := hdone.pc_cases
    · exact .inl hadv
    · exact .inr ⟨hset, hdone.executes, setsPc_opcodeOf_iff.1 hset⟩

end Sys2Proof

/-! SUPPORT. How a step and the host's operations treat the status, what Execute leaves unchanged, that no step reads what was
printed, and the reset state. -/

namespace Sys2Proof

open Machine

/-- HLT at the program counter of a Running state leads to Halted (42_handlers.md R163). -/
theorem Machine.InstrAt.status_step_hlt {s t : State} (h : InstrAt s .hlt) (hs : s.status = .running)
    (hstep : step s = .next t) : t.status = .halted := by
  rw [h.step_eq hs] at hstep
  obtain rfl := Host.Outcome.next.inj hstep
  rfl

/-- A run asked for in a terminal state changes nothing (44_fetch_decode_execute.md R203). -/
theorem Machine.CpuInstance.run_of_terminal {c : CpuInstance} (h : c.core.status ≠ .running) (polls : List Bool) :
    (c.run polls).2 = c := by
  by_cases hp : c.phase = .loadFailed
  · rw [run_of_loadFailed hp]
  · rw [run_eq_runLoop hp]
    cases hs : c.core.status with
    | running => exact absurd hs h
    | halted => rw [runLoop_of_halted hs]
    | faulted r => rw [runLoop_of_faulted hs]

/-- No load changes the status (70_reset_and_hazards.md R254, R255). -/
theorem Machine.CpuInstance.status_load (c : CpuInstance) (image : List Byte) :
    (c.load image).2.core.status = c.core.status := by
  by_cases hp : c.phase = .constructed
  · simp only [CpuInstance.load, hp]
    split <;> rfl
  · rw [load_refused hp]

/-- Settles O19: a step faults, leaving all but the status, or completes an instruction, which halts for HLT alone. -/
theorem onlyHltHalts : Obligations.OnlyHltHalts := by
  refine ⟨fun s t hstep => ?_, fun s t hs hstep => hs (step_cases hstep).1,
    fun c polls hc => c.run_of_terminal hc polls, CpuInstance.status_load⟩
  obtain ⟨hs, ⟨k, info, -, rfl⟩ | ⟨i, u, hdone⟩⟩ := step_faults_or_completes hstep
  · exact ⟨hs, ⟨nofun, fun hi => hi.status_step_hlt hs hstep⟩, fun r hr => by rw [← hr]; rfl⟩
  · obtain ⟨rfl, hhalted⟩ | hrunning := hdone.status_cases hs
    · exact ⟨hs, ⟨fun _ => hdone.instrAt, fun _ => hhalted⟩, fun r hr => nomatch hhalted.symm.trans hr⟩
    · exact ⟨hs, ⟨fun hhalted => (nomatch hrunning.symm.trans hhalted), fun hi => hi.status_step_hlt hs hstep⟩,
        fun r hr => nomatch hrunning.symm.trans hr⟩

/-! ### What Execute leaves unchanged -/

/-- Settles O34: the effect of every instruction is within the access table. -/
theorem registersWrittenByTable : Obligations.RegistersWrittenByTable :=
  fun _ _ _ hexec _ hq => (effect_of_exec hexec).reg_eq hq

/-- Settles O35: neither a fault nor the Advance phase writes the flags, and of the effects only a comparison does. -/
theorem onlyCmpWritesFlags : Obligations.OnlyCmpWritesFlags := by
  have exec_flags {i : Instr} {s t : State} (hi : ∀ d r, i ≠ .cmp d r) (he : Effect i s t) : t.flags = s.flags := by
    obtain hsame | ⟨d, r, -, -, hcmp, -⟩ := he.flags_cases
    · exact hsame
    · exact absurd hcmp (hi d r)
  refine ⟨fun i s t hi hexec => exec_flags hi (effect_of_exec hexec), fun s t hs hstep => ?_⟩
  obtain ⟨-, ⟨k, info, -, rfl⟩ | ⟨i, u, hdone⟩⟩ := step_faults_or_completes hstep
  · rfl
  · rw [hdone.flags_eq]
    refine exec_flags (fun d r hcmp => hs d r ?_) hdone.effect
    exact hcmp ▸ hdone.instrAt

/-- Settles O37: field by field, from what an effect keeps. -/
theorem execLeavesOtherFields : Obligations.ExecLeavesOtherFields := by
  intro i s t hexec
  have he := effect_of_exec hexec
  refine ⟨he.pc_eq, fun hprn => ?_, ?_, fun hhlt hf => ?_, he.stackLimit_eq⟩
  · obtain hsame | ⟨r, -, hi, -⟩ := he.out_cases
    · exact hsame
    · exact absurd hi (hprn r)
  · exact he.out_cases.imp_right fun ⟨_, v, _, hout⟩ => ⟨v, hout⟩
  · obtain ⟨k, info, -, rfl⟩ | ⟨hi, -⟩ | hsame := he.status_cases
    · cases hf
    · exact absurd hi hhlt
    · exact hsame

/-! ### The values already printed -/

namespace Machine

/-- The state with values printed before those of its `out`. -/
def State.withEarlierOut (earlier : List Byte) (s : State) : State := { s with out := earlier ++ s.out }

/-- The same of the next state of an outcome. -/
def withEarlierOut (earlier : List Byte) : StepOutcome → StepOutcome
  | .next t => .next (t.withEarlierOut earlier)
  | .fault r => .fault r
  | .refused r => .refused r

variable (earlier : List Byte) (s : State)

@[simp] theorem State.withEarlierOut_status : (s.withEarlierOut earlier).status = s.status := rfl
@[simp] theorem State.reg_withEarlierOut (r : Fin 8) : (s.withEarlierOut earlier).reg r = s.reg r := rfl
@[simp] theorem State.returnAddress_withEarlierOut : (s.withEarlierOut earlier).returnAddress = s.returnAddress := rfl

/-- Operand bytes are read from memory alone (44_fetch_decode_execute.md R195). -/
theorem fetchOperands_congr {s t : State} (h : t.mem = s.mem) (a n : Nat) : fetchOperands t a n = fetchOperands s a n := by
  induction n generalizing a with
  | zero => rfl
  | succ n ih => simp only [fetchOperands, State.memRead?_congr h, ih]

/-- The instruction fetched depends on the program counter and memory alone (44_fetch_decode_execute.md R192 to R196). -/
theorem fetchInstr_congr {s t : State} (hpc : t.pc = s.pc) (hmem : t.mem = s.mem) : fetchInstr t = fetchInstr s := by
  simp only [fetchInstr, fetchBytes, State.memRead?_congr hmem, fetchOperands_congr hmem, hpc]

theorem raise_withEarlierOut (trap : Trap) : raise trap (s.withEarlierOut earlier) = withEarlierOut earlier (raise trap s) := rfl

theorem withReg_withEarlierOut {opc b : Byte} {f g : Fin 8 → StepOutcome} (h : ∀ r, g r = withEarlierOut earlier (f r)) :
    withReg opc b (s.withEarlierOut earlier) g = withEarlierOut earlier (withReg opc b s f) := by
  cases hb : regIndex b with
  | some r => simp only [withReg, hb, h]
  | none => simp only [withReg, hb, raise_withEarlierOut]

theorem push_withEarlierOut (v : Byte) :
    push v (s.withEarlierOut earlier) = (push v s).map (State.withEarlierOut earlier) := by
  rw [push, push, apply_ite (Except.map _)]
  rfl

theorem pop_withEarlierOut : pop (s.withEarlierOut earlier) = (pop s).map (Prod.map id (State.withEarlierOut earlier)) := by
  rw [pop, pop, apply_ite (Except.map _)]
  rfl

theorem binaryOp_withEarlierOut (opc : Byte) (f : Byte → Byte → Byte) (d r : Byte) :
    binaryOp opc f d r (s.withEarlierOut earlier) = withEarlierOut earlier (binaryOp opc f d r s) :=
  withReg_withEarlierOut earlier s fun _ => withReg_withEarlierOut earlier s fun _ => rfl

theorem dividingOp_withEarlierOut (opc : Byte) (f : Byte → Byte → Byte) (d r : Byte) :
    dividingOp opc f d r (s.withEarlierOut earlier) = withEarlierOut earlier (dividingOp opc f d r s) :=
  withReg_withEarlierOut earlier s fun _ => withReg_withEarlierOut earlier s fun _ => by
    rw [apply_ite (withEarlierOut earlier)]
    rfl

theorem unaryOp_withEarlierOut (opc : Byte) (f : Byte → Byte) (d : Byte) :
    unaryOp opc f d (s.withEarlierOut earlier) = withEarlierOut earlier (unaryOp opc f d s) :=
  withReg_withEarlierOut earlier s fun _ => rfl

theorem conditionalJump_withEarlierOut (opc : Byte) (cond : Flags → Bool) (r : Byte) :
    conditionalJump opc cond r (s.withEarlierOut earlier) = withEarlierOut earlier (conditionalJump opc cond r s) :=
  withReg_withEarlierOut earlier s fun _ => by
    rw [withEarlierOut, apply_ite (State.withEarlierOut earlier)]
    rfl

/-- PRN appends after whatever was printed before. -/
theorem execPrn_withEarlierOut (r : Byte) : execPrn r (s.withEarlierOut earlier) = withEarlierOut earlier (execPrn r s) :=
  withReg_withEarlierOut earlier s fun i =>
    congrArg (fun out => Host.Outcome.next { s with out := out }) (List.append_assoc earlier s.out [s.reg i])

theorem execPush_withEarlierOut (r : Byte) : execPush r (s.withEarlierOut earlier) = withEarlierOut earlier (execPush r s) :=
  withReg_withEarlierOut earlier s fun i => by
    simp only [State.reg_withEarlierOut, push_withEarlierOut]
    cases push (s.reg i) s <;> rfl

theorem execPop_withEarlierOut (r : Byte) : execPop r (s.withEarlierOut earlier) = withEarlierOut earlier (execPop r s) :=
  withReg_withEarlierOut earlier s fun _ => by
    simp only [pop_withEarlierOut]
    cases pop s <;> rfl

theorem execCall_withEarlierOut (r : Byte) : execCall r (s.withEarlierOut earlier) = withEarlierOut earlier (execCall r s) :=
  withReg_withEarlierOut earlier s fun _ => by
    simp only [State.returnAddress_withEarlierOut, push_withEarlierOut]
    rw [apply_ite (withEarlierOut earlier)]
    cases push (BitVec.ofNat 8 s.returnAddress) s <;> rfl

theorem execRet_withEarlierOut : execRet (s.withEarlierOut earlier) = withEarlierOut earlier (execRet s) := by
  simp only [execRet, pop_withEarlierOut]
  cases pop s <;> rfl

/-- Execute does not read `out` (10_state.md R32). -/
theorem exec_withEarlierOut (i : Instr) : exec i (s.withEarlierOut earlier) = withEarlierOut earlier (exec i s) := by
  cases i with
  | add | sub | mul | and | or | xor | shl | shr => exact binaryOp_withEarlierOut ..
  | div | mod => exact dividingOp_withEarlierOut ..
  | inc | dec | not => exact unaryOp_withEarlierOut ..
  | cmp => exact withReg_withEarlierOut earlier s fun _ => withReg_withEarlierOut earlier s fun _ => rfl
  | push r => exact execPush_withEarlierOut earlier s r
  | pop r => exact execPop_withEarlierOut earlier s r
  | call r => exact execCall_withEarlierOut earlier s r
  | ret => exact execRet_withEarlierOut earlier s
  | prn r => exact execPrn_withEarlierOut earlier s r
  | ldi | jmp => exact withReg_withEarlierOut earlier s fun _ => rfl
  | hlt => rfl
  | jeq | jne | jgt | jlt | jle | jge => exact conditionalJump_withEarlierOut ..

theorem advance_withEarlierOut (b : Byte) (o : StepOutcome) :
    advance b (withEarlierOut earlier o) = withEarlierOut earlier (advance b o) := by
  cases o with
  | next t =>
    rw [withEarlierOut, advance_next, advance_next, apply_ite (withEarlierOut earlier)]
    rfl
  | fault | refused => rfl

/-- No phase of a step reads `out` (10_state.md R32, 44_fetch_decode_execute.md R202). -/
theorem step_withEarlierOut : step (s.withEarlierOut earlier) = withEarlierOut earlier (step s) := by
  have hfetch : fetchInstr (s.withEarlierOut earlier) = fetchInstr s := fetchInstr_congr rfl rfl
  simp only [step, State.withEarlierOut_status, hfetch, exec_withEarlierOut, advance_withEarlierOut, raise_withEarlierOut]
  cases s.status with
  | halted | faulted => rfl
  | running => cases fetchInstr s <;> rfl

end Machine

/-- Settles O52: each phase of the step commutes with putting values before `out`. -/
theorem outIsNeverRead : Obligations.OutIsNeverRead := by
  intro s earlier
  refine (step_withEarlierOut earlier s).trans ?_
  cases step s <;> rfl

/-! ### Reset, and the flag register as a byte -/

/-- Settles O1: the fields are read off the reset state; its memory lists no cell. -/
theorem resetLeavesStatedValues : Obligations.ResetLeavesStatedValues :=
  ⟨by decide, rfl, rfl, rfl, fun _ ha => State.memRead?_of_lt _ ha, rfl, rfl, rfl⟩

/-- Settles O2: each part of the invariant, evaluated at reset; the status is Running, so there is no record. -/
theorem resetMeetsInvariant : Obligations.ResetMeetsInvariant where
  memory := Memory.wf_reset
  pcRange := by decide
  flags := rfl
  record := nofun

/-- Settles O51: the byte is the three flags side by side, and a bit past them is a bit of no flag. -/
theorem flagByteLayout : Obligations.FlagByteLayout := by
  rintro ⟨l, g, e⟩
  have low : ∀ l g e : Bool, (Flags.toByte ⟨l, g, e⟩).getLsbD 2 = l ∧ (Flags.toByte ⟨l, g, e⟩).getLsbD 1 = g ∧
      (Flags.toByte ⟨l, g, e⟩).getLsbD 0 = e := by decide
  obtain ⟨hl, hg, he⟩ := low l g e
  refine ⟨hl, hg, he, fun k hk => ?_⟩
  rw [Flags.toByte, BitVec.getLsbD_setWidth, BitVec.getLsbD_of_ge _ k hk, Bool.and_false]

end Sys2Proof

/-! SUPPORT. Which instructions store to memory, and where. -/

namespace Sys2Proof

open Machine

/-- Only PUSH and CALL store, and they store one byte, at the push address, inside the stack region (20_memory.md R52, R55;
41_stack.md R140, R142). -/
theorem Machine.Effect.mem_cases {i : Instr} {s t : State} (h : Effect i s t) :
    t.mem = s.mem ∨ ∃ r v, (i = .push r ∨ i = .call r) ∧ s.inStackRegion s.pushAddress = true ∧
      t.mem = (s.memWrite s.pushAddress v).mem := by
  cases h with
  | push v region => exact .inr ⟨_, v, .inl rfl, region, rfl⟩
  | call v target room region => exact .inr ⟨_, v, .inr rfl, region, rfl⟩
  | fault | writeReg | compare | pop | ret | print | halt | jump | fallThrough => exact .inl rfl

/-- Settles O36: an effect keeps memory, or is a store at the push address, which leaves every other address. -/
theorem onlyPushAndCallStore : Obligations.OnlyPushAndCallStore := by
  intro i s t hexec a ha
  obtain hsame | ⟨r, v, hi, -, hstore⟩ := (effect_of_exec hexec).mem_cases
  · exact State.memRead?_congr hsame a
  · rw [State.memRead?_congr hstore, State.memRead?_memWrite, if_neg (ha ⟨r, hi⟩)]

end Sys2Proof

/-! SUPPORT. Which opcode bytes the dispatch selects, what the decoder answers on bytes long enough, and the encoding's two round
trips. -/

namespace Sys2Proof

/-! ### The two fields of an opcode byte that the decoder looks at -/

/-- Bits 7:6 of a byte are its quotient by 64 (30_encoding.md R71). -/
theorem operandCount_eq (b : Byte) : operandCount b = b.toNat / 64 := by
  rw [operandCount, BitVec.extractLsb'_toNat, Nat.shiftRight_eq_div_pow]
  omega

/-- The bytes of `operand_count` 3 are those from 0xC0 on (30_encoding.md R81). -/
theorem operandCount_eq_three_iff {b : Byte} : operandCount b = 3 ↔ 192 ≤ b.toNat := by
  rw [operandCount_eq]
  omega

theorem operandCount_le_two_iff {b : Byte} : operandCount b ≤ 2 ↔ b.toNat < 192 := by
  rw [operandCount_eq]
  omega

/-- Bit 5 of the opcode byte marks the operations of the ALU (30_encoding.md R71, R80). -/
theorem isAlu_opcodeOf_iff {i : Instr} : isAlu (opcodeOf i) = true ↔
    ∃ d s, i = .add d s ∨ i = .sub d s ∨ i = .mul d s ∨ i = .div d s ∨ i = .mod d s ∨ i = .inc d ∨ i = .dec d ∨
      i = .cmp d s ∨ i = .and d s ∨ i = .not d ∨ i = .or d s ∨ i = .xor d s ∨ i = .shl d s ∨ i = .shr d s := by
  constructor
  · intro h
    cases i with
    | add | sub | mul | div | mod | inc | dec | cmp | and | not | or | xor | shl | shr => simp
    | push | pop | call | ret | ldi | prn | hlt | jmp | jeq | jne | jgt | jlt | jle | jge =>
      simp only [opcodeOf] at h
      exact absurd h (by decide)
  · rintro ⟨d, s, rfl | rfl | rfl | rfl | rfl | rfl | rfl | rfl | rfl | rfl | rfl | rfl | rfl | rfl⟩ <;>
      simp only [opcodeOf] <;> decide

/-! ### The bytes the dispatch selects (44_fetch_decode_execute.md R196) -/

theorem findRow_eq_none_iff {rows : List OpcodeRow} {b : Byte} : findRow rows b = none ↔ b ∉ rows.map OpcodeRow.byte := by
  simp [findRow]

/-- The assigned bytes are those of the rows, the ALU's and then the handlers'. -/
theorem mem_assignedBytes_iff {b : Byte} :
    b ∈ assignedBytes ↔ b ∈ aluRows.map OpcodeRow.byte ∨ b ∈ handlerRows.map OpcodeRow.byte :=
  List.mem_append

/-- Bit 5 is 1 in the byte of every row of the ALU, and 0 in that of every handler, so the two units share no byte. -/
theorem isAlu_of_mem_rows :
    (∀ b ∈ aluRows.map OpcodeRow.byte, isAlu b = true) ∧ ∀ b ∈ handlerRows.map OpcodeRow.byte, isAlu b = false := by
  decide

/-- A byte that is not assigned has no row, and bit 5 names the failure. -/
theorem select_of_not_mem {b : Byte} (h : b ∉ assignedBytes) :
    select b = .error (if isAlu b then .unsupportedAlu else .unimplemented) := by
  obtain ⟨halu, hhandler⟩ := not_or.1 (mem_assignedBytes_iff.not.1 h)
  simp only [select, findRow_eq_none_iff.2 halu, findRow_eq_none_iff.2 hhandler, apply_ite Except.error]

/-- An assigned byte has a row in the unit that its bit 5 chooses. -/
theorem exists_select_of_mem {b : Byte} (h : b ∈ assignedBytes) : ∃ build, select b = .ok build := by
  have row_of {rows : List OpcodeRow} (hrow : b ∈ rows.map OpcodeRow.byte) : ∃ build, findRow rows b = some build :=
    Option.ne_none_iff_exists'.1 fun hnone => findRow_eq_none_iff.1 hnone hrow
  obtain halu | hhandler := mem_assignedBytes_iff.1 h
  · obtain ⟨build, hrow⟩ := row_of halu
    exact ⟨build, by simp only [select, isAlu_of_mem_rows.1 b halu, if_true, hrow]⟩
  · obtain ⟨build, hrow⟩ := row_of hhandler
    exact ⟨build, by simp [select, isAlu_of_mem_rows.2 b hhandler, hrow]⟩

/-- Every instruction's opcode byte is assigned, for the dispatch selects it. -/
theorem opcodeOf_mem_assignedBytes (i : Instr) : opcodeOf i ∈ assignedBytes := by
  by_contra h
  obtain ⟨build, hsel, -⟩ := opcodeSelects i
  cases hsel.symm.trans (select_of_not_mem h)

/-! ### The decoder on an opcode byte and what follows it -/

/-- `operand_count` 3 is refused before anything else is looked at (44_fetch_decode_execute.md R194, R200). -/
theorem decode_of_operandCount_eq_three {b : Byte} (h : operandCount b = 3) (tail : List Byte) :
    decode (b :: tail) = .error .malformedLength :=
  if_pos h

/-- With the operand bytes present, the decoder answers as the dispatch does (44_fetch_decode_execute.md R200). -/
theorem decode_cons {b : Byte} {tail : List Byte} (hcount : operandCount b ≤ 2) (hlen : operandCount b ≤ tail.length) :
    decode (b :: tail) =
      (select b).map fun build => (build (tail.getD 0 0) (tail.getD 1 0), tail.drop (operandCount b)) := by
  rw [decode, if_neg (by omega), if_neg (by omega)]
  cases select b <;> rfl

/-- What decodes is an opcode byte the dispatch selects and, after it, its operand bytes. -/
theorem decode_ok {bytes rest : List Byte} {i : Instr} (h : decode bytes = .ok (i, rest)) :
    ∃ b tail build, bytes = b :: tail ∧ operandCount b ≤ tail.length ∧ select b = .ok build ∧
      i = build (tail.getD 0 0) (tail.getD 1 0) ∧ rest = tail.drop (operandCount b) := by
  cases bytes with
  | nil => cases h
  | cons b tail =>
    rw [decode] at h
    split_ifs at h with hthree hshort
    cases hsel : select b with
    | error e => simp [hsel] at h
    | ok build =>
      simp only [hsel, Except.ok.injEq, Prod.mk.injEq] at h
      exact ⟨b, tail, build, rfl, not_lt.1 hshort, hsel, h.1.symm, h.2.symm⟩

/-- The two bytes the dispatch hands to a row start with the operand bytes, as long as those are there. -/
theorem take_getD_pair {tail : List Byte} {n : Nat} (hn : n ≤ 2) (hlen : n ≤ tail.length) :
    [tail.getD 0 0, tail.getD 1 0].take n = tail.take n := by
  match n, tail, hn, hlen with
  | 0, _, _, _ => rfl
  | 1, _ :: _, _, _ => rfl
  | 2, _ :: _ :: _, _, _ => rfl

/-! ### The obligations -/

/-- Settles O4: the opcode byte selects the instruction's own row, which takes as many bytes as the encoding has. -/
theorem decodeReturnsEncodedInstr : Obligations.DecodeReturnsEncodedInstr :=
  decode_encode_append

/-- Settles O5: the selected row builds an instruction of the byte read, whose operand bytes are those taken off the rest. -/
theorem encodeReturnsDecodedBytes : Obligations.EncodeReturnsDecodedBytes := by
  intro bytes i rest h
  obtain ⟨b, tail, build, rfl, hlen, hsel, rfl, rfl⟩ := decode_ok h
  obtain ⟨hcount, hopcode, hoperands⟩ := select_ok hsel (tail.getD 0 0) (tail.getD 1 0)
  rw [encode, hopcode, hoperands, take_getD_pair hcount hlen, List.cons_append, List.take_append_drop]

/-- Settles O6: each word is the encoding of its instruction. -/
theorem specWordsDecode : Obligations.SpecWordsDecode :=
  ⟨decode_encode_append (.add 1 2) [], decode_encode_append (.inc 3) [], decode_encode_append (.cmp 4 5) [],
    decode_encode_append (.not 6) [], decode_encode_append (.shr 7 0) [], decode_encode_append (.push 1) [],
    decode_encode_append (.pop 2) [], decode_encode_append (.call 1) [], decode_encode_append .ret [],
    decode_encode_append (.ldi 0 8) [], decode_encode_append (.prn 0) [], decode_encode_append .hlt [],
    decode_encode_append (.jge 7) []⟩

/-- Settles O7: field by field of the opcode byte. -/
theorem opcodeBitsFitInstruction : Obligations.OpcodeBitsFitInstruction :=
  ⟨by decide, rfl, fun i => ⟨opcodeOf_mem_assignedBytes i, (length_operandBytes i).symm,
    (length_encode i).trans (Nat.add_comm _ 1), isAlu_opcodeOf_iff, setsPc_opcodeOf_iff⟩⟩

/-- Settles O8: with two bytes at hand only the length and the dispatch decide, and the dispatch knows the assigned bytes. -/
theorem everyByteHasOneClass : Obligations.EveryByteHasOneClass := by
  intro b o₁ o₂ rest
  have answer (hcount : operandCount b ≤ 2) : decode (b :: o₁ :: o₂ :: rest) =
      (select b).map fun build => (build o₁ o₂, (o₁ :: o₂ :: rest).drop (operandCount b)) :=
    decode_cons hcount (hcount.trans (Nat.le_add_left 2 rest.length))
  have rejected (hb : b.toNat < 192) (hno : b ∉ assignedBytes) : decode (b :: o₁ :: o₂ :: rest) =
      .error (if isAlu b then .unsupportedAlu else .unimplemented) := by
    rw [answer (operandCount_le_two_iff.2 hb), select_of_not_mem hno]
    rfl
  refine ⟨fun hb => ?_, fun hb => decode_of_operandCount_eq_three (operandCount_eq_three_iff.2 hb) _,
    fun hb hno halu => (rejected hb hno).trans (congrArg _ (if_pos halu)),
    fun hb hno halu => (rejected hb hno).trans (congrArg _ (if_neg (Bool.eq_false_iff.1 halu)))⟩
  obtain ⟨build, hsel⟩ := exists_select_of_mem hb
  obtain ⟨hcount, hopcode, -⟩ := select_ok hsel o₁ o₂
  exact ⟨build o₁ o₂, hopcode, by rw [answer hcount, hsel]; rfl⟩

end Sys2Proof

/-! SUPPORT. What each operation of the ALU computes, as a number or bit by bit, and what each shape of ALU instruction answers on
registers. -/

namespace Sys2Proof

open Machine

namespace Machine

/-! ### The values (40_alu.md R102 to R114) -/

section Values

variable (a b : Byte)

theorem toNat_aluAdd : (aluAdd a b).toNat = (a.toNat + b.toNat) % 256 :=
  toNat_mask8_nat (a.toNat + b.toNat)

theorem toNat_aluSub : (aluSub a b).toNat = (a.toNat + 256 - b.toNat) % 256 := by
  have hmask := toNat_mask8 ((a.toNat : Int) - b.toNat)
  have hb := b.isLt
  rw [aluSub]
  omega

theorem toNat_aluMul : (aluMul a b).toNat = (a.toNat * b.toNat) % 256 :=
  toNat_mask8_nat (a.toNat * b.toNat)

/-- A quotient is at most its dividend, so the mask leaves it. -/
theorem toNat_aluDiv : (aluDiv a b).toNat = a.toNat / b.toNat := by
  rw [aluDiv, toNat_mask8_nat, Nat.mod_eq_of_lt ((Nat.div_le_self _ _).trans_lt a.isLt)]

/-- A remainder is at most its dividend, so the mask leaves it. -/
theorem toNat_aluMod : (aluMod a b).toNat = a.toNat % b.toNat := by
  rw [aluMod, toNat_mask8_nat, Nat.mod_eq_of_lt ((Nat.mod_le _ _).trans_lt a.isLt)]

theorem getLsbD_aluAnd (k : Nat) : (aluAnd a b).getLsbD k = (a.getLsbD k && b.getLsbD k) := BitVec.getLsbD_and

theorem getLsbD_aluOr (k : Nat) : (aluOr a b).getLsbD k = (a.getLsbD k || b.getLsbD k) := BitVec.getLsbD_or

theorem getLsbD_aluXor (k : Nat) : (aluXor a b).getLsbD k = (a.getLsbD k ^^ b.getLsbD k) := BitVec.getLsbD_xor

theorem toNat_aluNot : (aluNot a).toNat = 255 - a.toNat := BitVec.toNat_not

theorem toNat_aluShl : (aluShl a b).toNat = (a.toNat * 2 ^ b.toNat) % 256 := by
  rw [aluShl, toNat_mask8_nat, Nat.shiftLeft_eq]

theorem toNat_aluShr : (aluShr a b).toNat = a.toNat / 2 ^ b.toNat := by
  rw [aluShr, toNat_mask8_nat, Nat.shiftRight_eq_div_pow, Nat.mod_eq_of_lt ((Nat.div_le_self _ _).trans_lt a.isLt)]

theorem toNat_aluInc : (aluInc a).toNat = (a.toNat + 1) % 256 :=
  toNat_mask8_nat (a.toNat + 1)

theorem toNat_aluDec : (aluDec a).toNat = (a.toNat + 255) % 256 := by
  have hmask := toNat_mask8 ((a.toNat : Int) - 1)
  rw [aluDec]
  omega

variable {b}

/-- From a count of 8 on, 256 divides the power of two, so every bit is shifted out (40_alu.md R110). -/
theorem aluShl_of_le (h : 8 ≤ b.toNat) : aluShl a b = 0 := by
  have hdvd : 256 ∣ a.toNat * 2 ^ b.toNat := (pow_dvd_pow 2 h).mul_left a.toNat
  exact BitVec.eq_of_toNat_eq ((toNat_aluShl a b).trans (Nat.mod_eq_zero_of_dvd hdvd))

/-- From a count of 8 on, the power of two is above every byte, so every bit is shifted out (40_alu.md R111). -/
theorem aluShr_of_le (h : 8 ≤ b.toNat) : aluShr a b = 0 := by
  have hlt : a.toNat < 2 ^ b.toNat := a.isLt.trans_le (Nat.pow_le_pow_right two_pos h)
  exact BitVec.eq_of_toNat_eq ((toNat_aluShr a b).trans (Nat.div_eq_of_lt hlt))

end Values

/-! ### The flags of a comparison (10_state.md R29, 40_alu.md R115) -/

section Comparison

variable {a b : Byte}

theorem compareFlags_l_iff : (compareFlags a b).l = true ↔ a.toNat < b.toNat := decide_eq_true_iff

theorem compareFlags_g_iff : (compareFlags a b).g = true ↔ b.toNat < a.toNat := decide_eq_true_iff

theorem compareFlags_e_iff : (compareFlags a b).e = true ↔ a = b := decide_eq_true_iff.trans BitVec.toNat_inj

/-- Exactly one of the three flags is set. -/
theorem compareFlags_cases : compareFlags a b = ⟨true, false, false⟩ ∨ compareFlags a b = ⟨false, true, false⟩ ∨
    compareFlags a b = ⟨false, false, true⟩ := by
  obtain hlt | heq | hgt := lt_trichotomy a.toNat b.toNat
  · exact .inl (by simp [compareFlags, hlt, hlt.le, hlt.ne])
  · exact .inr (.inr (by simp [compareFlags, heq]))
  · exact .inr (.inl (by simp [compareFlags, hgt, hgt.le, hgt.ne']))

end Comparison

/-! ### The shapes on registers (40_alu.md R100, R101) -/

theorem binaryOp_regByte (opc : Byte) (f : Byte → Byte → Byte) (d r : Fin 8) (s : State) :
    binaryOp opc f (regByte d) (regByte r) s = .next (s.setReg d (f (s.reg d) (s.reg r))) :=
  withRegs_regByte ..

theorem unaryOp_regByte (opc : Byte) (f : Byte → Byte) (d : Fin 8) (s : State) :
    unaryOp opc f (regByte d) s = .next (s.setReg d (f (s.reg d))) :=
  withReg_regByte ..

theorem dividingOp_regByte_of_ne_zero (opc : Byte) (f : Byte → Byte → Byte) (d : Fin 8) {r : Fin 8} {s : State}
    (h : s.reg r ≠ 0) :
    dividingOp opc f (regByte d) (regByte r) s = .next (s.setReg d (f (s.reg d) (s.reg r))) :=
  (withRegs_regByte ..).trans (if_neg h)

/-- A divisor of 0 leaves the status changed and nothing else (60_exceptions.md R221). -/
theorem dividingOp_regByte_of_eq_zero (opc : Byte) (f : Byte → Byte → Byte) (d : Fin 8) {r : Fin 8} {s : State}
    (h : s.reg r = 0) :
    dividingOp opc f (regByte d) (regByte r) s = .next (s.faultedWith .divisionByZero (some opc) none) :=
  (withRegs_regByte ..).trans (if_pos h)

theorem execCmp_regByte (d r : Fin 8) (s : State) :
    execCmp (regByte d) (regByte r) s = .next { s with flags := compareFlags (s.reg d) (s.reg r) } :=
  withRegs_regByte ..

end Machine

/-! ### The obligations -/

/-- Settles O25: the shifts multiply and divide by a power of two, which clears a byte from the eighth power on. -/
theorem shiftResult : Obligations.ShiftResult := fun d r s =>
  ⟨aluShl (s.reg d) (s.reg r), aluShr (s.reg d) (s.reg r), toNat_aluShl _ _, toNat_aluShr _ _,
    fun h => ⟨aluShl_of_le _ h, aluShr_of_le _ h⟩, binaryOp_regByte .., binaryOp_regByte ..⟩

/-- Settles O21: the three are binary operations, and the mask takes their exact result modulo 256. -/
theorem addSubMulResult : Obligations.AddSubMulResult := fun d r s =>
  ⟨⟨aluAdd (s.reg d) (s.reg r), toNat_aluAdd _ _, binaryOp_regByte ..⟩,
    ⟨aluSub (s.reg d) (s.reg r), toNat_aluSub _ _, binaryOp_regByte ..⟩,
    ⟨aluMul (s.reg d) (s.reg r), toNat_aluMul _ _, binaryOp_regByte ..⟩⟩

/-- Settles O22: the quotient and the remainder of the old values, or the fault of a divisor of 0. -/
theorem divModResult : Obligations.DivModResult := by
  refine fun d r s => ⟨fun hne => ?_, fun hzero =>
    ⟨dividingOp_regByte_of_eq_zero _ _ d hzero, dividingOp_regByte_of_eq_zero _ _ d hzero⟩⟩
  have hpos : 0 < (s.reg r).toNat := Nat.pos_of_ne_zero (BitVec.toNat_inj.not.2 hne)
  refine ⟨aluDiv (s.reg d) (s.reg r), aluMod (s.reg d) (s.reg r), ?_, ?_, dividingOp_regByte_of_ne_zero _ _ d hne,
    dividingOp_regByte_of_ne_zero _ _ d hne⟩
  · rw [toNat_aluDiv, toNat_aluMod, Nat.div_add_mod']
  · rw [toNat_aluMod]
    exact Nat.mod_lt _ hpos

/-- Settles O24: AND, OR and XOR bit by bit, NOT as the difference from 255. -/
theorem bitwiseResult : Obligations.BitwiseResult := fun d r s =>
  ⟨⟨aluAnd (s.reg d) (s.reg r), getLsbD_aluAnd _ _, binaryOp_regByte ..⟩,
    ⟨aluOr (s.reg d) (s.reg r), getLsbD_aluOr _ _, binaryOp_regByte ..⟩,
    ⟨aluXor (s.reg d) (s.reg r), getLsbD_aluXor _ _, binaryOp_regByte ..⟩,
    ⟨aluNot (s.reg d), toNat_aluNot _, unaryOp_regByte ..⟩⟩

/-- Settles O26: both are unary operations on any register, SP included. -/
theorem incDecResult : Obligations.IncDecResult := fun d s =>
  ⟨⟨aluInc (s.reg d), toNat_aluInc _, unaryOp_regByte ..⟩, ⟨aluDec (s.reg d), toNat_aluDec _, unaryOp_regByte ..⟩⟩

/-- Settles O27: the flags written are those of the comparison, of which exactly one is set. -/
theorem cmpResult : Obligations.CmpResult := fun d r s =>
  ⟨compareFlags (s.reg d) (s.reg r), execCmp_regByte d r s, compareFlags_l_iff, compareFlags_g_iff, compareFlags_e_iff,
    compareFlags_cases⟩

end Sys2Proof

/-! SUPPORT. The stack: what a push and a pop answer inside and outside the stack region, that a pop undoes a push, and that
a run stores nowhere else. -/

namespace Sys2Proof

open Machine

/-! ### Runs -/

/-- A reflexive and transitive relation that every step keeps holds between the start of a run and its end. -/
theorem rel_runSteps {R : State → State → Prop} (refl : ∀ s, R s s) (trans : ∀ {s t u}, R s t → R t u → R s u)
    (hstep : ∀ {s t}, step s = .next t → R s t) (k : Nat) (s : State) : R s (runSteps k s) := by
  induction k generalizing s with
  | zero => exact refl s
  | succ k ih =>
    rw [runSteps]
    cases h : step s with
    | next t => exact trans (hstep h) (ih t)
    | fault r => exact refl s
    | refused r => exact refl s

/-! ### What is outside the stack region -/

namespace Machine

/-- The two states have the same `stack_limit`, and memory reads the same in both at every address outside the stack region
(00_scope.md R8). -/
def AgreesOutsideStack (s t : State) : Prop :=
  t.stackLimit = s.stackLimit ∧ ∀ a, a < s.stackLimit.val ∨ 0xF6 < a → t.memRead? a = s.memRead? a

theorem AgreesOutsideStack.refl (s : State) : AgreesOutsideStack s s := ⟨rfl, fun _ _ => rfl⟩

theorem AgreesOutsideStack.trans {s t u : State} (hst : AgreesOutsideStack s t) (htu : AgreesOutsideStack t u) :
    AgreesOutsideStack s u := by
  obtain ⟨hlimit, hmem⟩ := hst
  obtain ⟨hlimit', hmem'⟩ := htu
  rw [hlimit] at hlimit' hmem'
  exact ⟨hlimit', fun a ha => (hmem' a ha).trans (hmem a ha)⟩

/-- A store of Execute is inside the stack region, so no instruction changes what is outside it (41_stack.md R142). -/
theorem Effect.agreesOutsideStack {i : Instr} {s t : State} (h : Effect i s t) : AgreesOutsideStack s t := by
  refine ⟨h.stackLimit_eq, fun a ha => ?_⟩
  obtain hsame | ⟨-, v, -, hregion, hstore⟩ := h.mem_cases
  · exact State.memRead?_congr hsame a
  · have hrange := State.inStackRegion_iff.1 hregion
    have hne : a ≠ s.pushAddress.toNat := by omega
    rw [State.memRead?_congr hstore, State.memRead?_memWrite, if_neg hne]

end Machine

theorem Completes.stackLimit_eq {i : Instr} {s u t : State} (h : Completes s i u t) : t.stackLimit = u.stackLimit := by
  rw [h.eq_setPc]

/-- No step changes what is outside the stack region (20_memory.md R61). -/
theorem step_agreesOutsideStack {s t : State} (h : step s = .next t) : AgreesOutsideStack s t := by
  obtain ⟨-, ⟨k, info, -, rfl⟩ | ⟨i, u, hdone⟩⟩ := step_faults_or_completes h
  · exact ⟨rfl, fun _ _ => rfl⟩
  · have hadvance : AgreesOutsideStack u t := ⟨hdone.stackLimit_eq, fun a _ => State.memRead?_congr hdone.mem_eq a⟩
    exact hdone.effect.agreesOutsideStack.trans hadvance

/-- Settles O38: agreement outside the region is kept by every step, so by every run. -/
theorem runStoresOnlyInStackRegion : Obligations.RunStoresOnlyInStackRegion :=
  rel_runSteps AgreesOutsideStack.refl AgreesOutsideStack.trans step_agreesOutsideStack

/-! ### Push and pop -/

namespace Machine

/-- The state after a push of `v` that does not fault (41_stack.md R140). -/
def State.pushed (v : Byte) (s : State) : State := (s.setSp s.pushAddress).memWrite s.pushAddress v

/-- The state after a pop that does not fault (41_stack.md R141). -/
def State.popped (s : State) : State := s.setSp (mask8 ((s.sp.toNat : Int) + 1))

section Stack

variable {s t : State} (v : Byte)

theorem push_of_inStackRegion (h : s.inStackRegion s.pushAddress = true) : push v s = .ok (s.pushed v) := if_pos h

theorem push_of_not_inStackRegion (h : ¬ s.inStackRegion s.pushAddress = true) : push v s = .error s.pushAddress := if_neg h

theorem pop_of_inStackRegion (h : s.inStackRegion s.sp = true) : pop s = .ok (Memory.read s.mem s.sp.toNat, s.popped) :=
  if_pos h

theorem pop_of_not_inStackRegion (h : ¬ s.inStackRegion s.sp = true) : pop s = .error s.sp := if_neg h

theorem State.inStackRegion_congr (h : t.stackLimit = s.stackLimit) (a : Byte) : t.inStackRegion a = s.inStackRegion a := by
  simp only [State.inStackRegion, h]

variable (s)

theorem State.reg_pushed (q : Fin 8) : (s.pushed v).reg q = if q = 7 then s.pushAddress else s.reg q := s.reg_setSp q _

theorem State.reg_pushed_of_ne {q : Fin 8} (h : q ≠ 7) : (s.pushed v).reg q = s.reg q := s.reg_setReg_of_ne _ h

@[simp] theorem State.sp_pushed : (s.pushed v).sp = s.pushAddress := s.sp_setSp _

theorem State.memRead?_pushed_self : (s.pushed v).memRead? s.pushAddress.toNat = some v :=
  (State.memRead?_memWrite ..).trans (if_pos rfl)

theorem State.memRead?_pushed_of_ne {x : Nat} (h : x ≠ s.pushAddress.toNat) : (s.pushed v).memRead? x = s.memRead? x :=
  (State.memRead?_memWrite ..).trans (if_neg h)

theorem State.reg_popped_of_ne {q : Fin 8} (h : q ≠ 7) : s.popped.reg q = s.reg q := s.reg_setReg_of_ne _ h

theorem State.toNat_sp_popped : s.popped.sp.toNat = (s.sp.toNat + 1) % 256 := by
  rw [State.popped, State.sp_setSp]
  exact toNat_mask8_nat (s.sp.toNat + 1)

theorem State.memRead?_toNat (a : Byte) : s.memRead? a.toNat = some (Memory.read s.mem a.toNat) := s.memRead?_of_lt a.isLt

/-- A byte put in the program counter keeps its value (10_state.md R26). -/
theorem State.toNat_pc_jumpTo : (s.jumpTo v).pc.toNat = v.toNat := by
  rw [State.jumpTo_pc, BitVec.toNat_setWidth]
  omega

variable {s}

/-- Popping where a push left SP restores SP (41_stack.md R148). -/
theorem State.sp_popped_of_sp_eq_pushAddress (h : t.sp = s.pushAddress) : t.popped.sp = s.sp := by
  apply BitVec.eq_of_toNat_eq
  rw [State.toNat_sp_popped, h, State.toNat_pushAddress]
  omega

end Stack

end Machine

/-- Settles O41: the push leaves SP inside the region, on the byte it stored, and the pop moves SP back. -/
theorem popUndoesPush : Obligations.PopUndoesPush := by
  intro v s t hpush
  obtain ⟨hregion, ht⟩ := push_ok hpush
  obtain rfl : t = s.pushed v := ht
  have hsp : (s.pushed v).popped.sp = s.sp := State.sp_popped_of_sp_eq_pushAddress (s.sp_pushed v)
  have hread : Memory.read (s.pushed v).mem s.pushAddress.toNat = v :=
    Option.some.inj ((State.memRead?_toNat ..).symm.trans (s.memRead?_pushed_self v))
  refine ⟨(s.pushed v).popped, ?_, hsp, fun q => ?_⟩
  · rw [pop_of_inStackRegion ((s.sp_pushed v).symm ▸ hregion), s.sp_pushed, hread]
  · by_cases hq : q = 7
    · rw [hq]; exact hsp
    · rw [State.reg_popped_of_ne _ hq, State.reg_pushed_of_ne _ _ hq]

/-! ### PUSH, POP, CALL and RET (41_stack.md R144 to R147) -/

namespace Machine

section Instructions

variable {s : State} (r : Fin 8)

theorem execPush_regByte_of_inStackRegion (h : s.inStackRegion s.pushAddress = true) :
    execPush (regByte r) s = .next (s.pushed (s.reg r)) := by
  rw [execPush, withReg_regByte, push_of_inStackRegion _ h]

theorem execPush_regByte_of_not_inStackRegion (h : ¬ s.inStackRegion s.pushAddress = true) :
    execPush (regByte r) s = .next (s.faultedWith .stackOverflow (some Opcode.push) (some s.pushAddress.toNat)) := by
  rw [execPush, withReg_regByte, push_of_not_inStackRegion _ h]
  rfl

theorem execPop_regByte_of_inStackRegion (h : s.inStackRegion s.sp = true) :
    execPop (regByte r) s = .next (s.popped.setReg r (Memory.read s.mem s.sp.toNat)) := by
  rw [execPop, withReg_regByte, pop_of_inStackRegion h]

theorem execPop_regByte_of_not_inStackRegion (h : ¬ s.inStackRegion s.sp = true) :
    execPop (regByte r) s = .next (s.faultedWith .stackUnderflow (some Opcode.pop) (some s.sp.toNat)) := by
  rw [execPop, withReg_regByte, pop_of_not_inStackRegion h]
  rfl

/-- The return address is checked before the push (41_stack.md R146). -/
theorem execCall_regByte_of_returnAddress_gt (h : 255 < s.returnAddress) :
    execCall (regByte r) s = .next (s.faultedWith .invalidMemoryAddress (some Opcode.call) (some s.returnAddress)) := by
  rw [execCall, withReg_regByte, if_pos h, raise_eq]

theorem execCall_regByte_of_not_inStackRegion (hret : s.returnAddress ≤ 255) (h : ¬ s.inStackRegion s.pushAddress = true) :
    execCall (regByte r) s = .next (s.faultedWith .stackOverflow (some Opcode.call) (some s.pushAddress.toNat)) := by
  rw [execCall, withReg_regByte, if_neg hret.not_gt, push_of_not_inStackRegion _ h]
  rfl

/-- The target register is read after the push (41_stack.md R146). -/
theorem execCall_regByte_of_inStackRegion (hret : s.returnAddress ≤ 255) (h : s.inStackRegion s.pushAddress = true) :
    execCall (regByte r) s = .next ((s.pushed (BitVec.ofNat 8 s.returnAddress)).jumpTo
      ((s.pushed (BitVec.ofNat 8 s.returnAddress)).reg r)) := by
  rw [execCall, withReg_regByte, if_neg hret.not_gt, push_of_inStackRegion _ h]

theorem execRet_of_inStackRegion (h : s.inStackRegion s.sp = true) :
    execRet s = .next (s.popped.jumpTo (Memory.read s.mem s.sp.toNat)) := by
  rw [execRet, pop_of_inStackRegion h]

theorem execRet_of_not_inStackRegion (h : ¬ s.inStackRegion s.sp = true) :
    execRet s = .next (s.faultedWith .stackUnderflow (some Opcode.ret) (some s.sp.toNat)) := by
  rw [execRet, pop_of_not_inStackRegion h]
  rfl

end Instructions

end Machine

/-- Settles O28: the bound on the push address decides between the pushed state and the fault. -/
theorem pushResult : Obligations.PushResult := by
  intro r s a ha
  obtain rfl : a = s.pushAddress.toNat := ha.trans s.toNat_pushAddress.symm
  rw [← State.inStackRegion_iff]
  exact ⟨fun h => ⟨s.pushed (s.reg r), execPush_regByte_of_inStackRegion r h, congrArg _ (s.sp_pushed _),
    fun _ => s.reg_pushed_of_ne _, s.memRead?_pushed_self _, fun _ => s.memRead?_pushed_of_ne _, rfl, rfl, rfl, rfl, rfl⟩,
    execPush_regByte_of_not_inStackRegion r⟩

/-- Settles O29: the destination is written after SP, so SP keeps the incremented value for every other destination. -/
theorem popResult : Obligations.PopResult := by
  intro r s
  rw [← State.inStackRegion_iff]
  refine ⟨fun h => ⟨s.popped.setReg r (Memory.read s.mem s.sp.toNat), execPop_regByte_of_inStackRegion r h, ?_, fun hr => ?_,
    fun q hq hqr => ?_, fun _ => rfl, rfl, rfl, rfl, rfl, rfl⟩, execPop_regByte_of_not_inStackRegion r⟩
  · rw [State.reg_setReg_self, State.memRead?_toNat]
  · rw [State.sp, State.reg_setReg_of_ne _ _ hr.symm]
    exact s.toNat_sp_popped
  · rw [State.reg_setReg_of_ne _ _ hqr, State.reg_popped_of_ne _ hq]

/-- Settles O30: the return address is bounded first, then the push address; the target of CALL R7 is the push address. -/
theorem callResult : Obligations.CallResult := by
  intro r s a ha
  obtain rfl : a = s.pushAddress.toNat := ha.trans s.toNat_pushAddress.symm
  rw [← State.inStackRegion_iff]
  refine ⟨execCall_regByte_of_returnAddress_gt r, execCall_regByte_of_not_inStackRegion r, fun hret h =>
    ⟨_, execCall_regByte_of_inStackRegion r hret h, ?_, ?_, fun q hq => ?_, s.memRead?_pushed_self _,
    fun _ => s.memRead?_pushed_of_ne _, rfl, rfl, rfl, rfl⟩⟩
  · rw [State.toNat_pc_jumpTo, State.reg_pushed, apply_ite BitVec.toNat]
  · rw [State.sp_jumpTo, State.sp_pushed]
  · rw [State.reg_jumpTo, State.reg_pushed_of_ne _ _ hq]

/-- Settles O31: the bound on SP decides between the popped state with its byte as the target and the fault. -/
theorem retResult : Obligations.RetResult := by
  intro s
  rw [← State.inStackRegion_iff]
  exact ⟨fun h => ⟨_, execRet_of_inStackRegion h, ⟨_, s.memRead?_toNat s.sp, State.toNat_pc_jumpTo ..⟩, s.toNat_sp_popped,
    fun _ => s.reg_popped_of_ne, fun _ => rfl, rfl, rfl, rfl, rfl⟩, execRet_of_not_inStackRegion⟩

/-! ### A RET after its CALL -/

/-- Advance leaves what an instruction that sets the program counter answered (44_fetch_decode_execute.md R199). -/
theorem Machine.advance_of_setsPc {b : Byte} (h : setsPc b = true) (o : StepOutcome) : advance b o = o := by
  cases o with
  | next t => rw [advance_next, h, Bool.true_or, if_pos rfl]
  | fault r => rfl
  | refused r => rfl

theorem Machine.InstrAt.step_eq_exec {s : State} {i : Instr} (h : InstrAt s i) (hs : s.status = .running) (hi : IsTransfer i) :
    step s = exec i s := by
  rw [h.step_eq hs, advance_of_setsPc (setsPc_opcodeOf_iff.2 hi)]

/-- A step that runs CALL and stays Running pushed the return address, and moved nothing but the program counter besides
(41_stack.md R146). -/
theorem Machine.InstrAt.step_call {s t : State} {b : Byte} (h : InstrAt s (.call b)) (hs : s.status = .running)
    (hstep : step s = .next t) (ht : t.status = .running) :
    s.returnAddress ≤ 255 ∧ s.inStackRegion s.pushAddress = true ∧
      ∃ target, t = (s.pushed (BitVec.ofNat 8 s.returnAddress)).jumpTo target := by
  rw [h.step_eq_exec hs (.inr ⟨b, .inl rfl⟩)] at hstep
  obtain ⟨i, -, hret, hregion, hcall⟩ | ⟨k, info, -, hfault⟩ := execCall_cases b s
  · exact ⟨hret, hregion, _, Host.Outcome.next.inj (hstep.symm.trans hcall)⟩
  · obtain rfl := Host.Outcome.next.inj (hstep.symm.trans hfault)
    cases ht

/-- A step that runs RET with SP inside the region pops its target (41_stack.md R147). -/
theorem Machine.InstrAt.step_ret {s : State} (h : InstrAt s .ret) (hs : s.status = .running)
    (hregion : s.inStackRegion s.sp = true) : step s = .next (s.popped.jumpTo (Memory.read s.mem s.sp.toNat)) :=
  (h.step_eq_exec hs (.inl rfl)).trans (execRet_of_inStackRegion hregion)

/-- Settles O42: SP stands on the return address that CALL pushed, so RET is inside the region and pops that byte. -/
theorem retReturnsPastCall : Obligations.RetReturnsPastCall := by
  intro b s t u hs hcall hstep ht hu hsp hlimit hbyte hret
  obtain ⟨hroom, hregion, target, rfl⟩ := hcall.step_call hs hstep ht
  rw [State.sp_jumpTo, State.sp_pushed] at hsp hbyte
  rw [State.memRead?_jumpTo, State.memRead?_pushed_self] at hbyte
  have huregion : u.inStackRegion u.sp = true := by
    rw [hsp, State.inStackRegion_congr hlimit]
    exact hregion
  have hread : Memory.read u.mem u.sp.toNat = BitVec.ofNat 8 s.returnAddress := by
    apply Option.some.inj
    rw [← State.memRead?_toNat, hsp, hbyte]
  refine ⟨_, hret.step_ret hu huregion, hu, ?_, State.sp_popped_of_sp_eq_pushAddress hsp⟩
  rw [State.toNat_pc_jumpTo, hread, BitVec.toNat_ofNat, Nat.mod_eq_of_lt (by omega), State.returnAddress]

end Sys2Proof

/-! SUPPORT. The handlers on registers: LDI, PRN and the jumps, and a run whose step leads back to its own state. -/

namespace Sys2Proof

open Machine

namespace Machine

/-! ### When the conditions of the jumps hold (42_handlers.md R167, R170, R171) -/

theorem Flags.notEqual_iff {f : Flags} : f.notEqual = true ↔ f.e = false := by
  rw [Flags.notEqual, Bool.not_eq_true']

theorem Flags.greaterOrEqual_iff {f : Flags} : f.greaterOrEqual = true ↔ f.g = true ∨ f.e = true := Bool.or_eq_true_iff

theorem Flags.lessOrEqual_iff {f : Flags} : f.lessOrEqual = true ↔ f.l = true ∨ f.e = true := Bool.or_eq_true_iff

/-! ### The program counter -/

/-- A skip wraps only at the end of the program counter's 9 bits, past every program counter of a run (10_state.md R26). -/
theorem State.toNat_pc_skip_of_lt {s : State} {n : Nat} (h : s.pc.toNat + n < 512) :
    (s.skip n).pc.toNat = s.pc.toNat + n := by
  rw [State.skip_pc, BitVec.toNat_add, BitVec.toNat_ofNat]
  omega

/-- A jump to the program counter's own value changes nothing. -/
theorem State.jumpTo_eq_self {s : State} {v : Byte} (h : v.toNat = s.pc.toNat) : s.jumpTo v = s := by
  have hpc : v.setWidth 9 = s.pc := BitVec.eq_of_toNat_eq ((s.toNat_pc_jumpTo v).trans h)
  rw [State.jumpTo, hpc]

/-! ### The handlers on registers (42_handlers.md R161 to R165) -/

theorem execLdi_regByte (r : Fin 8) (imm : Byte) (s : State) : execLdi (regByte r) imm s = .next (s.setReg r imm) :=
  withReg_regByte ..

theorem execPrn_regByte (r : Fin 8) (s : State) : execPrn (regByte r) s = .next { s with out := s.out ++ [s.reg r] } :=
  withReg_regByte ..

theorem execJmp_regByte (r : Fin 8) (s : State) : execJmp (regByte r) s = .next (s.jumpTo (s.reg r)) :=
  withReg_regByte ..

/-- A conditional jump is taken exactly when what its condition says of the flags holds. -/
theorem conditionalJump_regByte {cond : Flags → Bool} {s : State} {P : Prop} [Decidable P] (h : cond s.flags = true ↔ P)
    (opc : Byte) (r : Fin 8) :
    conditionalJump opc cond (regByte r) s = .next (if P then s.jumpTo (s.reg r) else s.skip 2) :=
  (withReg_regByte ..).trans (congrArg _ (if_congr h rfl rfl))

end Machine

/-! ### Runs -/

/-- A state that the step leads back to is the state after every number of steps. -/
theorem runSteps_of_step_eq_self {s : State} (h : step s = .next s) (k : Nat) : runSteps k s = s := by
  induction k with
  | zero => rfl
  | succ k ih => simp only [runSteps, h, ih]

/-! ### The obligations -/

/-- Settles O40: a jump to the program counter's own value leads back to the same state. -/
theorem jumpToItselfNeverEnds : Obligations.JumpToItselfNeverEnds := by
  intro r s hs hi hpc
  have hstep : step s = .next s := by
    calc step s = exec (.jmp (regByte r)) s := hi.step_eq_exec hs (.inr ⟨_, .inr (.inl rfl)⟩)
      _ = .next (s.jumpTo (s.reg r)) := execJmp_regByte r s
      _ = .next s := by rw [State.jumpTo_eq_self hpc]
  have hrun : ∀ k, runSteps k s = s := runSteps_of_step_eq_self hstep
  exact ⟨fun k => (congrArg State.status (hrun k)).trans hs, hrun⟩

/-- Settles O32: each handler on a register that passes the check. -/
theorem ldiPrnHltResult : Obligations.LdiPrnHltResult :=
  fun r imm s => ⟨execLdi_regByte r imm s, execPrn_regByte r s, rfl⟩

/-- Settles O33: every jump goes to the register's value or past its two bytes, and the flags decide which. -/
theorem jumpResults : Obligations.JumpResults := fun r s =>
  ⟨s.jumpTo (s.reg r), s.skip 2, rfl, State.toNat_pc_jumpTo .., rfl, fun hpc => State.toNat_pc_skip_of_lt (by omega),
    execJmp_regByte r s, conditionalJump_regByte Iff.rfl _ r, conditionalJump_regByte Flags.notEqual_iff _ r,
    conditionalJump_regByte Iff.rfl _ r, conditionalJump_regByte Iff.rfl _ r,
    conditionalJump_regByte Flags.greaterOrEqual_iff _ r, conditionalJump_regByte Flags.lessOrEqual_iff _ r⟩

end Sys2Proof

/-! SUPPORT. The phases of a step in order: the faults before Execute, the register check, the Advance phase. -/

namespace Sys2Proof

open Machine

namespace Machine

variable {s : State} {b : Byte}

/-! ### When there is a step (44_fetch_decode_execute.md R191) -/

theorem step_of_halted (hs : s.status = .halted) : step s = .fault .noStepHalted := by
  simp only [step, hs]

theorem step_of_faulted {r : FaultRecord} (hs : s.status = .faulted r) : step s = .fault (.noStepFaulted r) := by
  simp only [step, hs]

/-- A fault found before Execute is the step's whole effect (44_fetch_decode_execute.md R200, R201). -/
theorem step_of_fetchInstr_error {trap : Trap} (hs : s.status = .running) (h : fetchInstr s = .error trap) :
    step s = .next (s.faultedWith trap.kind trap.opcode trap.info) := by
  simp only [step, hs, h, raise_eq]

/-- Advance answers a next state for a next state. -/
theorem exists_advance_next (b : Byte) (t : State) : ∃ u, advance b (.next t) = .next u := by
  rw [advance_next]
  split_ifs
  · exact ⟨t, rfl⟩
  · exact ⟨_, rfl⟩

theorem exists_step_of_running (hs : s.status = .running) : ∃ t, step s = .next t := by
  cases hf : fetchInstr s with
  | error trap => exact ⟨_, step_of_fetchInstr_error hs hf⟩
  | ok i =>
    obtain ⟨u, hu, -⟩ := exec_effect i s
    rw [(fetchInstr_ok hf).step_eq hs, hu]
    exact exists_advance_next _ u

/-! ### The faults before Execute, in the order of 44_fetch_decode_execute.md R200 -/

/-- The fetch past memory (44_fetch_decode_execute.md R192). -/
theorem fetchInstr_of_pc_ge (h : 256 ≤ s.pc.toNat) :
    fetchInstr s = .error { kind := .invalidMemoryAddress, opcode := none, info := some s.pc.toNat } := by
  simp only [fetchInstr, fetchBytes, State.memRead?_eq_none.2 h]

/-- The malformed length (44_fetch_decode_execute.md R194). -/
theorem fetchInstr_of_operandCount_eq_three (hb : s.memRead? s.pc.toNat = some b) (h : operandCount b = 3) :
    fetchInstr s = .error { kind := .malformedInstruction, opcode := some b, info := none } := by
  simp only [fetchInstr, fetchBytes, hb, if_pos h]

/-- Operand bytes that reach past memory fail at its first address past the end (44_fetch_decode_execute.md R195). -/
theorem fetchOperands_of_past_memory {a n : Nat} (ha : a ≤ 256) (h : 256 < a + n) : fetchOperands s a n = .error 256 := by
  cases hops : fetchOperands s a n with
  | error e => rw [(fetchOperands_error ha hops).1]
  | ok ops =>
    obtain ⟨hlen, hbyte⟩ := fetchOperands_ok hops
    have hpast := hbyte (256 - a) (by omega)
    rw [State.memRead?_eq_none.2 (by omega), eq_comm, List.getElem?_eq_none_iff] at hpast
    omega

/-- Operand bytes inside memory are fetched (44_fetch_decode_execute.md R195). -/
theorem exists_fetchOperands_ok {a n : Nat} (h : a + n ≤ 256) : ∃ ops, fetchOperands s a n = .ok ops := by
  cases hops : fetchOperands s a n with
  | ok ops => exact ⟨ops, rfl⟩
  | error e =>
    have hpast := (fetchOperands_error (by omega) hops).2
    omega

/-- The operand fetch past memory (44_fetch_decode_execute.md R195). -/
theorem fetchInstr_of_operands_past_memory (hb : s.memRead? s.pc.toNat = some b) (hcount : operandCount b ≤ 2)
    (h : 256 ≤ s.pc.toNat + operandCount b) :
    fetchInstr s = .error { kind := .invalidMemoryAddress, opcode := some b, info := some 256 } := by
  have hpc : ¬ 256 ≤ s.pc.toNat := fun hge => by simp [State.memRead?_eq_none.2 hge] at hb
  have hops : fetchOperands s (s.pc.toNat + 1) (operandCount b) = .error 256 :=
    fetchOperands_of_past_memory (by omega) (by omega)
  simp only [fetchInstr, fetchBytes, hb, if_neg (show operandCount b ≠ 3 by omega), hops]

/-- The dispatch of a byte that is not assigned (44_fetch_decode_execute.md R196). -/
theorem fetchInstr_of_not_mem (hb : s.memRead? s.pc.toNat = some b) (hcount : operandCount b ≤ 2)
    (hroom : s.pc.toNat + operandCount b ≤ 255) (h : b ∉ assignedBytes) :
    fetchInstr s = .error
      { kind := if isAlu b then .unsupportedAluOperation else .unimplementedOpcode, opcode := some b, info := none } := by
  obtain ⟨ops, hops⟩ := exists_fetchOperands_ok (s := s) (a := s.pc.toNat + 1) (n := operandCount b) (by omega)
  have hdecode : decode (b :: ops) = .error (if isAlu b then .unsupportedAlu else .unimplemented) := by
    rw [decode_cons hcount (fetchOperands_ok hops).1.ge, select_of_not_mem h]
    rfl
  simp only [fetchInstr, fetchBytes, hb, if_neg (show operandCount b ≠ 3 by omega), hops, hdecode]
  cases isAlu b <;> rfl

/-! ### The register check (44_fetch_decode_execute.md R197) -/

/-- A sole reg operand byte that names no register. -/
theorem withReg_of_find? {opc b₁ : Byte} {f : Fin 8 → StepOutcome}
    (h : [b₁].find? (fun b => decide (8 ≤ b.toNat)) = some b) :
    withReg opc b₁ s f = .next (s.faultedWith .malformedInstruction (some opc) (some b.toNat)) := by
  rw [List.find?_singleton, Option.ite_none_right_eq_some, decide_eq_true_eq] at h
  obtain ⟨hle, rfl⟩ := h.imp_right Option.some.inj
  exact withReg_of_le hle s f

/-- The first reg operand byte that names no register, `op1` before `op2`. -/
theorem withRegs_of_find? {opc b₁ b₂ : Byte} {f : Fin 8 → Fin 8 → StepOutcome}
    (h : [b₁, b₂].find? (fun b => decide (8 ≤ b.toNat)) = some b) :
    withRegs opc b₁ b₂ s f = .next (s.faultedWith .malformedInstruction (some opc) (some b.toNat)) := by
  obtain ⟨hb₁, rfl⟩ | ⟨hb₁, hb₂⟩ := List.find?_cons_eq_some.1 h
  · exact withReg_of_le (of_decide_eq_true hb₁) s _
  · obtain ⟨r, rfl, -⟩ | ⟨hle, -⟩ := withReg_cases opc b₁ s fun _ => .next s
    · rw [withRegs, withReg_regByte]
      exact withReg_of_find? hb₂
    · simp [hle] at hb₁

/-- Every instruction checks its reg operands, one or two or none, before it does anything else. -/
theorem exec_registerCheck (i : Instr) (s : State) :
    i.regOperands = [] ∨
    (∃ b f, i.regOperands = [b] ∧ exec i s = withReg (opcodeOf i) b s f) ∨
    ∃ b₁ b₂ f, i.regOperands = [b₁, b₂] ∧ exec i s = withRegs (opcodeOf i) b₁ b₂ s f := by
  cases i with
  | ret | hlt => exact .inl rfl
  | inc | dec | not | push | pop | call | ldi | prn | jmp | jeq | jne | jgt | jlt | jle | jge =>
    exact .inr (.inl ⟨_, _, rfl, rfl⟩)
  | add | sub | mul | div | mod | cmp | and | or | xor | shl | shr => exact .inr (.inr ⟨_, _, _, rfl, rfl⟩)

end Machine

/-- An instruction is not well formed exactly when the register check finds a byte (30_encoding.md R76). -/
theorem Instr.wellFormed_eq_false_iff {i : Instr} :
    i.wellFormed = false ↔ ∃ b, i.regOperands.find? (fun b => decide (8 ≤ b.toNat)) = some b := by
  rw [← Option.isSome_iff_exists, List.find?_isSome, Instr.wellFormed, List.all_eq_false]
  simp only [namesRegister, decide_eq_true_eq, not_le, Nat.lt_iff_add_one_le]

/-! ### The obligations about one step -/

/-- Settles O9: by the fetch of the instruction at the program counter. -/
theorem stepRunsDecodedInstr : Obligations.StepRunsDecodedInstr :=
  fun _ _ hs hi => hi.step_eq hs

/-- Settles O11: the fetch finds no byte. -/
theorem fetchPastMemoryFaults : Obligations.FetchPastMemoryFaults :=
  fun _ hs hpc => step_of_fetchInstr_error hs (fetchInstr_of_pc_ge hpc)

/-- Settles O12: the length is checked before the operand bytes are looked at. -/
theorem operandCountThreeFaults : Obligations.OperandCountThreeFaults :=
  fun _ _ hs hb hthree =>
    step_of_fetchInstr_error hs (fetchInstr_of_operandCount_eq_three hb (operandCount_eq_three_iff.2 hthree))

/-- Settles O13: the operand bytes are fetched before the dispatch looks at the opcode byte. -/
theorem operandFetchPastMemoryFaults : Obligations.OperandFetchPastMemoryFaults :=
  fun _ _ hs hb hcount hpast =>
    step_of_fetchInstr_error hs (fetchInstr_of_operands_past_memory hb (operandCount_le_two_iff.2 hcount) hpast)

/-- Settles O14: the dispatch has no row for the byte, and bit 5 names the fault. -/
theorem unassignedByteFaults : Obligations.UnassignedByteFaults :=
  fun _ _ hs hb hcount hroom hno =>
    step_of_fetchInstr_error hs (fetchInstr_of_not_mem hb (operandCount_le_two_iff.2 hcount) hroom hno)

/-- Settles O15: an instruction checks no, one or two reg operand bytes, in order, before it executes. -/
theorem registerByteAboveSevenFaults : Obligations.RegisterByteAboveSevenFaults := by
  refine fun i s => ⟨fun b hfind => ?_, Instr.wellFormed_eq_false_iff⟩
  obtain hops | ⟨b₁, f, hops, hexec⟩ | ⟨b₁, b₂, f, hops, hexec⟩ := exec_registerCheck i s <;> rw [hops] at hfind
  · cases hfind
  · rw [hexec, withReg_of_find? hfind]
  · rw [hexec, withRegs_of_find? hfind]

/-- Settles O16: a Running state steps by a fault or by an instruction, and the answer in the others names their status. -/
theorem stepDefinedExactlyWhenRunning : Obligations.StepDefinedExactlyWhenRunning := by
  refine ⟨fun s => ⟨fun ⟨_, hstep⟩ => (step_cases hstep).1, exists_step_of_running⟩, fun s s' hs hsame => ?_⟩
  cases hst : s.status with
  | running => exact absurd hst hs
  | halted => rw [step_of_halted hst, step_of_halted (hsame.trans hst)]
  | faulted r => rw [step_of_faulted hst, step_of_faulted (hsame.trans hst)]

/-- Settles O10: Execute leaves the program counter to Advance, and the instruction ends inside memory. -/
theorem advanceMovesPastInstr : Obligations.AdvanceMovesPastInstr := by
  intro s i t hs hi hexec
  rw [hi.step_eq hs, hexec, advance_next]
  refine ⟨fun hstays => if_pos ?_, fun hf hset => ⟨t.skip (operandCount (opcodeOf i) + 1), ?_, rfl, ?_⟩⟩
  · rw [Bool.or_eq_true]; exact hstays.symm
  · rw [hf, hset]; rfl
  · have hend := hi.pc_add_length_le
    have hpc : (t.skip (operandCount (opcodeOf i) + 1)).pc.toNat = s.pc.toNat + operandCount (opcodeOf i) + 1 := by
      rw [← (effect_of_exec hexec).pc_eq hset] at hend ⊢
      exact State.toNat_pc_skip hend
    exact ⟨hpc, hpc.trans_le hend, fun hpast hrun => ⟨_, _, fetchPastMemoryFaults _ hrun hpast.ge, rfl, rfl⟩⟩

end Sys2Proof

/-! SUPPORT. How a run ends, and how the host's run reports it and goes on after a stop. -/

namespace Sys2Proof

open Machine

/-! ### The three ends of a run (44_fetch_decode_execute.md R205) -/

/-- A run reaches at most one terminal state. -/
theorem runSteps_eq_of_terminal {s : State} {j k : Nat} (hj : (runSteps j s).status ≠ .running)
    (hk : (runSteps k s).status ≠ .running) : runSteps j s = runSteps k s := by
  obtain hjk | hkj := Nat.le_total j k
  · exact (runSteps_of_le hj hjk).symm
  · exact runSteps_of_le hk hkj

theorem EndsNormally.not_endsFaulted {s : State} (h : EndsNormally s) : ¬ EndsFaulted s := by
  rintro ⟨k, r, hk⟩
  obtain ⟨j, hj⟩ := h
  have hsame : runSteps j s = runSteps k s := runSteps_eq_of_terminal (by simp [hj]) (by simp [hk])
  rw [hsame, hk] at hj
  cases hj

theorem neverEnds_iff {s : State} : NeverEnds s ↔ ¬ EndsNormally s ∧ ¬ EndsFaulted s := by
  constructor
  · intro h
    exact ⟨fun ⟨k, hk⟩ => (nomatch (h k).symm.trans hk), fun ⟨k, r, hk⟩ => nomatch (h k).symm.trans hk⟩
  · rintro ⟨hnormal, hfaulted⟩ k
    cases hk : (runSteps k s).status with
    | running => rfl
    | halted => exact absurd ⟨k, hk⟩ hnormal
    | faulted r => exact absurd ⟨k, r, hk⟩ hfaulted

/-- Settles O39: the two ends exclude each other, and a run that has neither never ends. -/
theorem runEndsInExactlyOneWay : Obligations.RunEndsInExactlyOneWay := by
  intro s
  have hexclusive : EndsNormally s → ¬ EndsFaulted s := EndsNormally.not_endsFaulted
  rw [neverEnds_iff]
  tauto

/-! ### The host's run (44_fetch_decode_execute.md R203, R204) -/

namespace Machine

/-- All that a run can do: it answers at once, or takes one step for an unset poll and goes on. -/
inductive RunsTo : List Bool → CpuInstance → RunResult → CpuInstance → Prop where
  | refused {polls c} (failed : c.phase = .loadFailed) : RunsTo polls c .refused c
  | halted {polls c} (may : c.phase ≠ .loadFailed) (status : c.core.status = .halted) : RunsTo polls c .halted c
  | faulted {polls c} (r) (may : c.phase ≠ .loadFailed) (status : c.core.status = .faulted r) : RunsTo polls c (.faulted r) c
  | unfinished {c} (may : c.phase ≠ .loadFailed) (status : c.core.status = .running) : RunsTo [] c .unfinished c
  | stopped {polls c} (may : c.phase ≠ .loadFailed) (status : c.core.status = .running) : RunsTo (true :: polls) c .stopped c
  | step {polls c t answer d} (may : c.phase ≠ .loadFailed) (next : step c.core = .next t)
      (rest : RunsTo polls ⟨t, .started⟩ answer d) : RunsTo (false :: polls) c answer d

variable {c d : CpuInstance} {polls : List Bool} {answer : RunResult}

theorem CpuInstance.run_of_halted (hp : c.phase ≠ .loadFailed) (h : c.core.status = .halted) (polls : List Bool) :
    c.run polls = (.halted, c) := by
  rw [run_eq_runLoop hp, runLoop_of_halted h]

theorem CpuInstance.run_of_faulted {r : FaultRecord} (hp : c.phase ≠ .loadFailed) (h : c.core.status = .faulted r)
    (polls : List Bool) : c.run polls = (.faulted r, c) := by
  rw [run_eq_runLoop hp, runLoop_of_faulted h]

theorem CpuInstance.run_nil (hp : c.phase ≠ .loadFailed) (h : c.core.status = .running) : c.run [] = (.unfinished, c) := by
  rw [run_eq_runLoop hp, runLoop_nil h]

theorem CpuInstance.run_stop (hp : c.phase ≠ .loadFailed) (h : c.core.status = .running) (polls : List Bool) :
    c.run (true :: polls) = (.stopped, c) := by
  rw [run_eq_runLoop hp, runLoop_stop h]

/-- No step makes a load fail, so the run goes on as a run with the rest of the polls. -/
theorem CpuInstance.run_step {t : State} (hp : c.phase ≠ .loadFailed) (h : c.core.status = .running)
    (ht : step c.core = .next t) (polls : List Bool) : c.run (false :: polls) = CpuInstance.run polls ⟨t, .started⟩ :=
  calc c.run (false :: polls) = c.runLoop (false :: polls) := run_eq_runLoop hp _
    _ = CpuInstance.runLoop polls ⟨t, .started⟩ := runLoop_step h ht polls
    _ = CpuInstance.run polls ⟨t, .started⟩ := (run_eq_runLoop (c := ⟨t, .started⟩) nofun polls).symm

/-- Where a run can take no step, a second run answers what any run answers. -/
theorem CpuInstance.run_run_of_idle (h : c.phase = .loadFailed ∨ c.core.status ≠ .running) (first second polls : List Bool) :
    (c.run first).2.run second = c.run polls := by
  by_cases hp : c.phase = .loadFailed
  · simp only [run_of_loadFailed hp]
  · cases hs : c.core.status with
    | running => exact absurd hs (h.resolve_left hp)
    | halted => simp only [run_of_halted hp hs]
    | faulted r => simp only [run_of_faulted hp hs]

/-- Each run of the host's loop is one of these. -/
theorem CpuInstance.run_runsTo (c : CpuInstance) (polls : List Bool) : RunsTo polls c (c.run polls).1 (c.run polls).2 := by
  by_cases hp : c.phase = .loadFailed
  · rw [run_of_loadFailed hp]; exact .refused hp
  · cases hs : c.core.status with
    | halted => rw [run_of_halted hp hs]; exact .halted hp hs
    | faulted r => rw [run_of_faulted hp hs]; exact .faulted r hp hs
    | running =>
      match polls with
      | [] => rw [run_nil hp hs]; exact .unfinished hp hs
      | true :: polls => rw [run_stop hp hs]; exact .stopped hp hs
      | false :: polls =>
        obtain ⟨t, ht⟩ := exists_step_of_running hs
        rw [run_step hp hs ht]
        exact .step hp ht (run_runsTo _ polls)

/-- The status that an answer tells of, none for a refused run. -/
def RunResult.status? : RunResult → Option Status
  | .halted => some .halted
  | .faulted r => some (.faulted r)
  | .stopped => some .running
  | .unfinished => some .running
  | .refused => none

/-- A run leaves the status that its answer tells of. -/
theorem RunsTo.status_eq (h : RunsTo polls c answer d) {st : Status} (ha : answer.status? = some st) :
    d.core.status = st := by
  induction h with
  | refused => cases ha
  | halted _ hs | faulted _ _ hs | unfinished _ hs | stopped _ hs => exact hs.trans (Option.some.inj ha)
  | step _ _ _ ih => exact ih ha

/-- A run is refused exactly after a failed load (70_reset_and_hazards.md R255). -/
theorem RunsTo.refused_iff (h : RunsTo polls c answer d) : answer = .refused ↔ c.phase = .loadFailed := by
  induction h with
  | refused hp => exact iff_of_true rfl hp
  | halted hp | faulted _ hp | unfinished hp | stopped hp => exact iff_of_false nofun hp
  | step hp _ _ ih => exact iff_of_false (fun ha => nomatch ih.1 ha) hp

/-- A run takes at most one step for each poll. -/
theorem RunsTo.core_eq (h : RunsTo polls c answer d) : ∃ k, k ≤ polls.length ∧ d.core = runSteps k c.core := by
  induction h with
  | refused | halted | faulted | unfinished | stopped => exact ⟨0, Nat.zero_le _, rfl⟩
  | step _ ht _ ih =>
    obtain ⟨k, hk, hcore⟩ := ih
    exact ⟨k + 1, Nat.succ_le_succ hk, by simp only [runSteps, ht, hcore]⟩

end Machine

/-- Settles O48: the stop changes nothing at the poll it is set, and the steps before it are those of the other run. -/
theorem stoppedRunResumes : Obligations.StoppedRunResumes := by
  intro c k polls
  induction k generalizing c with
  | zero =>
    by_cases hidle : c.phase = .loadFailed ∨ c.core.status ≠ .running
    · exact c.run_run_of_idle hidle _ _ _
    · obtain ⟨hp, hs⟩ := not_or.1 hidle
      simp only [List.replicate_zero, List.nil_append, CpuInstance.run_stop hp (not_not.1 hs)]
  | succ k ih =>
    by_cases hidle : c.phase = .loadFailed ∨ c.core.status ≠ .running
    · exact c.run_run_of_idle hidle _ _ _
    · obtain ⟨hp, hs⟩ := not_or.1 hidle
      obtain ⟨t, ht⟩ := exists_step_of_running (not_not.1 hs)
      simp only [List.replicate_succ, List.cons_append, CpuInstance.run_step hp (not_not.1 hs) ht, ih]

/-- Settles O49: the clauses for one poll, and what every run does. -/
theorem runReportsHowItEnded : Obligations.RunReportsHowItEnded := by
  intro c polls
  have hrun := c.run_runsTo polls
  refine ⟨fun hp hs => ⟨?_, CpuInstance.run_stop hp hs polls, CpuInstance.run_nil hp hs⟩,
    fun hp hs => CpuInstance.run_of_halted hp hs polls, fun r hp hs => CpuInstance.run_of_faulted hp hs polls,
    hrun.refused_iff, fun hp => by rw [CpuInstance.run_of_loadFailed hp], hrun.core_eq, ?_⟩
  · obtain ⟨t, ht⟩ := exists_step_of_running hs
    exact ⟨t, ht, CpuInstance.run_step hp hs ht polls⟩
  · split
    next ha => exact hrun.status_eq (congrArg RunResult.status? ha)
    next r ha => exact hrun.status_eq (congrArg RunResult.status? ha)
    next ha => exact hrun.status_eq (congrArg RunResult.status? ha)
    next ha => exact hrun.status_eq (congrArg RunResult.status? ha)
    next ha => rw [CpuInstance.run_of_loadFailed (hrun.refused_iff.1 ha)]

end Sys2Proof

/-! SUPPORT. The record a faulting step leaves, a divisor of 0, and what the trace reads. -/

namespace Sys2Proof

open Machine

/-- A step that leads to Faulted leaves the status with a record that fits its kind and names the byte at the program counter, and
all else as it was (60_exceptions.md R226, 10_state.md R31). -/
theorem faultedWith_of_step {s t : State} {r : FaultRecord} (hstep : step s = .next t) (hr : t.status = .faulted r) :
    InfoFits s r.reason r.info ∧ t = s.faultedWith r.reason (s.memRead? s.pc.toNat) r.info := by
  obtain ⟨-, ⟨k, info, hfits, rfl⟩ | ⟨i, u, hdone⟩⟩ := step_faults_or_completes hstep
  · obtain rfl := Status.faulted.inj hr
    exact ⟨hfits, rfl⟩
  · have hf : t.status.isFaulted = false := hdone.status_eq ▸ hdone.notFaulted
    rw [hr] at hf
    cases hf

namespace Machine

theorem State.not_mem_region_of_inStackRegion_eq_false {s : State} {a : Byte} (h : s.inStackRegion a = false) :
    ¬ (s.stackLimit.val ≤ a.toNat ∧ a.toNat ≤ 0xF6) := by
  rw [← State.inStackRegion_iff, h]
  exact Bool.false_ne_true

/-- A fault of Execute is the step's whole effect: Advance leaves the program counter (44_fetch_decode_execute.md R199, R201). -/
theorem InstrAt.step_of_exec_faultedWith {s : State} {i : Instr} {k : FaultKind} {opcode : Option Byte} {info : Option Nat}
    (h : InstrAt s i) (hs : s.status = .running) (hexec : exec i s = .next (s.faultedWith k opcode info)) :
    step s = .next (s.faultedWith k opcode info) :=
  (advanceMovesPastInstr s i _ hs h hexec).1 (.inl rfl)

end Machine

/-! ### The obligations about faults and the trace -/

/-- Settles O17: a faulting step leaves the state with a record of its own pc and byte, and a Faulted state has no step. -/
theorem faultChangesOnlyStatus : Obligations.FaultChangesOnlyStatus := by
  intro s t r hstep hr
  obtain ⟨-, ht⟩ := faultedWith_of_step hstep hr
  have hrecord : r = ⟨r.reason, s.pc, s.memRead? s.pc.toNat, r.info⟩ := by
    rw [ht] at hr
    exact (Status.faulted.inj hr).symm
  refine ⟨?_, congrArg FaultRecord.faultPc hrecord, congrArg FaultRecord.opcode hrecord, fun u hu => ?_⟩
  · rw [← hr, ht]
    rfl
  · rw [step_of_faulted hr] at hu
    cases hu

/-- Settles O18: the information of a fault that a step takes fits its kind, and an address off the stack is off its two bounds. -/
theorem faultRecordInfoFitsReason : Obligations.FaultRecordInfoFitsReason := by
  intro s t r hstep hr
  obtain ⟨hfits, -⟩ := faultedWith_of_step hstep hr
  obtain ⟨reason, faultPc, opcode, info⟩ := r
  cases reason with
  | divisionByZero | unsupportedAluOperation | unimplementedOpcode | malformedInstruction | invalidMemoryAddress
  | programTooLarge => exact hfits
  | stackOverflow | stackUnderflow =>
    obtain ⟨a, hinfo, hregion⟩ := hfits
    exact ⟨a, hinfo, State.not_mem_region_of_inStackRegion_eq_false hregion⟩

/-- Settles O23: DIV and MOD by 0 execute to the fault, and the step leaves it so. -/
theorem divModByZeroFaults : Obligations.DivModByZeroFaults := by
  intro d r s hs hzero hi
  obtain ⟨hdiv, hmod⟩ := (divModResult d r s).2 hzero
  obtain hi | hi := hi
  · exact ⟨_, _, hi.step_of_exec_faultedWith hs hdiv, rfl, rfl, rfl⟩
  · exact ⟨_, _, hi.step_of_exec_faultedWith hs hmod, rfl, rfl, rfl⟩

/-- Settles O50: each of the three bytes is a read of memory, and a read is absent exactly past its end. -/
theorem traceReadsState : Obligations.TraceReadsState := by
  intro s
  have hbyte : ∀ k : Fin 3, s.trace.bytes[k] = s.memRead? (s.pc.toNat + k.val)
    | 0 => rfl
    | 1 => rfl
    | 2 => rfl
  exact ⟨rfl, fun _ => rfl, fun k => ⟨hbyte k, by rw [hbyte k, State.memRead?_eq_none]⟩⟩

end Sys2Proof

/-! SUPPORT. What the host's one load does, when a load is refused, and a run with nothing loaded. -/

namespace Sys2Proof

open Machine

namespace Machine

/-! ### The load after construction (70_reset_and_hazards.md R254 to R256) -/

theorem CpuInstance.load_of_length_le {c : CpuInstance} {image : List Byte} (hp : c.phase = .constructed)
    (h : image.length ≤ 256) : c.load image = (.loaded, ⟨c.core.withImage image h, .loaded⟩) := by
  simp only [CpuInstance.load, hp, dif_pos h]

theorem CpuInstance.load_of_lt_length {c : CpuInstance} {image : List Byte} (hp : c.phase = .constructed)
    (h : 256 < image.length) : c.load image = (.failed .programTooLarge image.length, ⟨c.core, .loadFailed⟩) := by
  simp only [CpuInstance.load, hp, dif_neg (Nat.not_le_of_lt h)]

section Image

variable {s : State} {image : List Byte} (h : image.length ≤ 256) {a : Nat}

theorem State.memRead?_withImage_of_lt (ha : a < image.length) : (s.withImage image h).memRead? a = image[a]? := by
  have hread : Memory.read (s.withImage image h).mem a = image.getD a 0 :=
    (Memory.read_writeBytes s.mem 0 image a (by omega)).trans (if_pos (by omega))
  rw [State.memRead?_of_lt _ (by omega), hread, List.getD_eq_getElem _ _ ha, List.getElem?_eq_getElem ha]

theorem State.memRead?_withImage_of_length_le (ha : image.length ≤ a) :
    (s.withImage image h).memRead? a = s.memRead? a := by
  by_cases hin : a < 256
  · have hread : Memory.read (s.withImage image h).mem a = Memory.read s.mem a :=
      (Memory.read_writeBytes s.mem 0 image a hin).trans (if_neg (by omega))
    rw [State.memRead?_of_lt _ hin, State.memRead?_of_lt _ hin, hread]
  · rw [State.memRead?_eq_none.2 (by omega), State.memRead?_eq_none.2 (by omega)]

end Image

/-- A stack whose lowest address is past its highest has no cell (70_reset_and_hazards.md R256). -/
theorem State.not_inStackRegion_of_stackLimit_ge {s : State} (h : 0xF7 ≤ s.stackLimit.val) (a : Byte) :
    ¬ s.inStackRegion a = true := by
  rw [State.inStackRegion_iff]
  omega

/-! ### A run that takes a step, and the first step with nothing loaded -/

/-- A run that takes a step ends the time in which a load is accepted (70_reset_and_hazards.md R253). -/
theorem CpuInstance.phase_run_step {c : CpuInstance} (hp : c.phase ≠ .loadFailed) (hs : c.core.status = .running)
    (polls : List Bool) : (c.run (false :: polls)).2.phase ≠ .constructed := by
  obtain ⟨t, ht⟩ := exists_step_of_running hs
  rw [run_step hp hs ht]
  exact CpuInstance.phase_run (by simp) polls

/-- The zero byte that an unloaded memory holds at address 0 is no instruction (70_reset_and_hazards.md R257). -/
theorem step_reset : step State.reset = .next (State.reset.faultedWith .unimplementedOpcode (some 0) none) :=
  unassignedByteFaults State.reset 0 rfl rfl (by decide) (by decide) (by decide)

end Machine

/-! ### The obligations about loads -/

/-- Settles O43: the load is accepted, and its image lies in memory from address 0 with the reset value past its end. -/
theorem loadWritesImage : Obligations.LoadWritesImage := by
  intro image h
  refine ⟨_, CpuInstance.load_of_length_le rfl h, fun i hi => State.memRead?_withImage_of_lt h hi, fun i hi hin => ?_,
    rfl, rfl, rfl, rfl⟩
  exact (State.memRead?_withImage_of_length_le h hi).trans (State.memRead?_of_lt _ hin)

/-- Settles O44: the limit is the image's length, and from 0xF7 on no address lies in the stack region. -/
theorem loadSetsStackLimit : Obligations.LoadSetsStackLimit := by
  refine ⟨fun image h => ?_, fun s h => ⟨fun v => ?_, ?_⟩⟩
  · rw [CpuInstance.load_of_length_le rfl h]
    rfl
  · exact push_of_not_inStackRegion v (State.not_inStackRegion_of_stackLimit_ge h _)
  · exact pop_of_not_inStackRegion (State.not_inStackRegion_of_stackLimit_ge h _)

/-- Settles O46: a load is refused wherever the phase is past constructed, which a load and a step bring about and no run
undoes. -/
theorem lateLoadRefused : Obligations.LateLoadRefused := by
  refine ⟨fun c first second polls => ?_, fun c d polls later image hp hs hd => ?_⟩
  · have hphase := c.phase_load first
    exact ⟨CpuInstance.load_refused hphase second, CpuInstance.load_refused (CpuInstance.phase_run hphase polls) second⟩
  · have hphase : d.phase ≠ .constructed := hd ▸ CpuInstance.phase_run_step hp hs polls
    exact ⟨CpuInstance.load_refused hphase image, CpuInstance.load_refused (CpuInstance.phase_run hphase later) image⟩

/-- Settles O45: the failed load leaves the core, and in its phase every run is refused. -/
theorem oversizeLoadFails : Obligations.OversizeLoadFails := fun _ h =>
  ⟨_, CpuInstance.load_of_lt_length rfl h, rfl, rfl, CpuInstance.run_of_loadFailed rfl⟩

/-- Settles O47: the one step faults on the zero byte at address 0, and the run ends there. -/
theorem runWithoutLoadFaultsAtZero : Obligations.RunWithoutLoadFaultsAtZero := by
  intro polls
  calc CpuInstance.construct.run (false :: polls)
    _ = CpuInstance.run polls ⟨State.reset.faultedWith .unimplementedOpcode (some 0) none, .started⟩ :=
      CpuInstance.run_step (by decide) rfl step_reset polls
    _ = _ := CpuInstance.run_of_faulted (by decide) rfl polls

end Sys2Proof
